-- ==== Sys2Proof/Word.lean ====
section
/-! DEFINITION. The bit-vector types of the CHIP-8 core: bytes, 16-bit registers and instruction words,
and the 4-bit register index. All values are unsigned (00_scope.md R11). -/

namespace Sys2Proof

/-- An 8-bit value: a general register, a memory byte, a timer, the immediate `kk` (00_scope.md R7, R11). -/
abbrev Byte := BitVec 8

/-- A 16-bit value: `PC`, `I` and a stack slot (10_state.md R18). -/
abbrev Addr := BitVec 16

/-- A 4-bit register index; all 16 values name a register (10_state.md R19, 30_encoding.md R58). -/
abbrev Reg := BitVec 4

/-- A 16-bit instruction word (30_encoding.md R55). -/
abbrev InstrWord := BitVec 16

/-- `VF`, the sixteenth register, which doubles as the flag (10_state.md R20). -/
abbrev vf : Reg := 0xF#4

end Sys2Proof
end

