-- ==== Sys2Proof/Config.lean ====
section
/-! DEFINITION. What is fixed for the machine: the constants of 00_scope.md R7, the one parameter the spec
leaves open (`FONT`, R8) and the free values that stand for the host's per-cycle inputs. -/

namespace Sys2Proof.Config

/-- MEM_SIZE (00_scope.md R7): addresses run 0x000..0xFFF (20_memory.md R38). -/
abbrev memSize : Nat := 0x1000
/-- FONT_BASE (00_scope.md R7). -/
abbrev fontBase : Nat := 0x050
/-- FONT_GLYPH_BYTES (00_scope.md R7). -/
abbrev glyphBytes : Nat := 5
/-- PROG_BASE (00_scope.md R7): where programs are loaded and where `PC` starts. -/
abbrev progBase : Nat := 0x200
/-- PROG_MAX_LEN (00_scope.md R7): 4096 - 0x200 bytes. -/
abbrev progMaxLen : Nat := 3584
/-- STACK_DEPTH (00_scope.md R7). -/
abbrev stackDepth : Nat := 16
/-- FB_W (00_scope.md R7). -/
abbrev fbWidth : Nat := 64
/-- FB_H (00_scope.md R7). -/
abbrev fbHeight : Nat := 32

/-- `FONT`, the 80 glyph bytes (00_scope.md R8: an OPEN parameter; 93_implementation_defined.md X13).
A constant with no body: no proof can see a glyph. DESIGN CHOICE, safe: log entry 5. -/
opaque font : Vector Byte 80

/-- The 16 key flags the host supplies in the cycle numbered by the argument, where `State.inputs` lists none
(10_state.md R32, 92_eei_decisions.md D14: an input with no law). DESIGN CHOICE, safe: log entry 3. -/
opaque freeKeys : Nat → Vector Bool 16

/-- The random byte of the cycle numbered by the argument, where `State.inputs` lists none
(10_state.md R33, 92_eei_decisions.md D15, D31: a free draw with no law). DESIGN CHOICE, safe: log entry 4. -/
opaque freeRnd : Nat → Byte

/-- The conventional glyph bytes of 92_eei_decisions.md D24, which the spec marks as general knowledge.
PRESUMED. NO definition of the machine uses it; a claim about glyph bits takes
`s.font = Config.conventionalFont` as a hypothesis (log entry 5). -/
def conventionalFont : Vector Byte 80 :=
  #v[0xF0, 0x90, 0x90, 0x90, 0xF0,  0x20, 0x60, 0x20, 0x20, 0x70,
     0xF0, 0x10, 0xF0, 0x80, 0xF0,  0xF0, 0x10, 0xF0, 0x10, 0xF0,
     0x90, 0x90, 0xF0, 0x10, 0x10,  0xF0, 0x80, 0xF0, 0x10, 0xF0,
     0xF0, 0x80, 0xF0, 0x90, 0xF0,  0xF0, 0x10, 0x20, 0x40, 0x40,
     0xF0, 0x90, 0xF0, 0x90, 0xF0,  0xF0, 0x90, 0xF0, 0x10, 0xF0,
     0xF0, 0x90, 0xF0, 0x90, 0x90,  0xE0, 0x90, 0xE0, 0x90, 0xE0,
     0xF0, 0x80, 0x80, 0x80, 0xF0,  0xE0, 0x90, 0x90, 0x90, 0xE0,
     0xF0, 0x80, 0xF0, 0x80, 0xF0,  0xF0, 0x80, 0xF0, 0x80, 0x80]

end Sys2Proof.Config
end

