-- ==== Sys2Proof/Syntax.lean ====
section
/-! DEFINITION. The instructions of the core: one constructor for each of the 34 rows of the opcode map
(30_encoding.md R65). Operands are the fields of 30_encoding.md R55 and R57; a bit that R66 calls ignored is
no operand. The no-op of R64 has no row and so no constructor: `Decoded.noOp` of Decode.lean stands for it. -/

namespace Sys2Proof

/-- The 34 instructions of 30_encoding.md R65, in the table's order. `x` and `y` are register indices, `kk`
the immediate byte, `nnn` the immediate 12-bit address. The row count `n` of DRW is a count, so a `Nat`;
`Instr.wf` bounds it by 15 (R57). -/
inductive Instr where
  /-- 00E0 `CLS` (44_display.md R108). -/
  | cls
  /-- 00EE `RET` (41_control_flow.md R81). -/
  | ret
  /-- 1nnn `JP nnn` (R82). -/
  | jp (nnn : BitVec 12)
  /-- 2nnn `CALL nnn` (R83). -/
  | call (nnn : BitVec 12)
  /-- 3xkk `SE Vx, kk` (R84). -/
  | seImm (x : Reg) (kk : Byte)
  /-- 4xkk `SNE Vx, kk` (R85). -/
  | sneImm (x : Reg) (kk : Byte)
  /-- 5xy0 `SE Vx, Vy` (R86). -/
  | seReg (x y : Reg)
  /-- 6xkk `LD Vx, kk` (42_alu.md R90). -/
  | ldImm (x : Reg) (kk : Byte)
  /-- 7xkk `ADD Vx, kk` (R91). -/
  | addImm (x : Reg) (kk : Byte)
  /-- 8xy0 `LD Vx, Vy` (R92). -/
  | ldReg (x y : Reg)
  /-- 8xy1 `OR Vx, Vy` (R93). -/
  | orReg (x y : Reg)
  /-- 8xy2 `AND Vx, Vy` (R94). -/
  | andReg (x y : Reg)
  /-- 8xy3 `XOR Vx, Vy` (R95). -/
  | xorReg (x y : Reg)
  /-- 8xy4 `ADD Vx, Vy` (R96). -/
  | addReg (x y : Reg)
  /-- 8xy5 `SUB Vx, Vy` (R97). -/
  | sub (x y : Reg)
  /-- 8xy6 `SHR Vx` (R98); the y field is ignored (R66). -/
  | shr (x : Reg)
  /-- 8xy7 `SUBN Vx, Vy` (R99). -/
  | subn (x y : Reg)
  /-- 8xyE `SHL Vx` (R100); the y field is ignored (R66). -/
  | shl (x : Reg)
  /-- 9xy0 `SNE Vx, Vy` (41_control_flow.md R87). -/
  | sneReg (x y : Reg)
  /-- Annn `LD I, nnn` (43_index_memory.md R102). -/
  | ldI (nnn : BitVec 12)
  /-- Bnnn `JP V0, nnn` (41_control_flow.md R88). -/
  | jpV0 (nnn : BitVec 12)
  /-- Cxkk `RND Vx, kk` (42_alu.md R101). -/
  | rnd (x : Reg) (kk : Byte)
  /-- Dxyn `DRW Vx, Vy, n` (44_display.md R109). -/
  | drw (x y : Reg) (n : Nat)
  /-- Ex9E `SKP Vx` (45_timers_keys.md R111). -/
  | skp (x : Reg)
  /-- ExA1 `SKNP Vx` (R112). -/
  | sknp (x : Reg)
  /-- Fx07 `LD Vx, DT` (R113). -/
  | ldVxDt (x : Reg)
  /-- Fx0A `LD Vx, K` (R114). -/
  | ldVxK (x : Reg)
  /-- Fx15 `LD DT, Vx` (R115). -/
  | ldDtVx (x : Reg)
  /-- Fx18 `LD ST, Vx` (R116). -/
  | ldStVx (x : Reg)
  /-- Fx1E `ADD I, Vx` (43_index_memory.md R103). -/
  | addI (x : Reg)
  /-- Fx29 `LD F, Vx` (R104). -/
  | ldF (x : Reg)
  /-- Fx33 `LD B, Vx` (R105). -/
  | ldB (x : Reg)
  /-- Fx55 `LD [I], Vx` (R106). -/
  | stRegs (x : Reg)
  /-- Fx65 `LD Vx, [I]` (R107). -/
  | ldRegs (x : Reg)
  deriving DecidableEq, Repr

end Sys2Proof
end

