-- ==== Sys2Proof/WellFormed.lean ====
section
/-! DEFINITION. The checks on terms that their types do not make already: the row count of DRW fits its
4-bit field, and a program image fits the program region. -/

namespace Sys2Proof

/-- An instruction can be written as one word: `n` is an unsigned 4-bit count, 0..15 (30_encoding.md R57).
Every other operand has exactly the width of its field, so its type is the check. -/
def Instr.wf : Instr → Bool
  | .drw _ _ n => n ≤ 15
  | .cls | .ret | .jp _ | .call _ | .seImm _ _ | .sneImm _ _ | .seReg _ _ | .ldImm _ _ | .addImm _ _
  | .ldReg _ _ | .orReg _ _ | .andReg _ _ | .xorReg _ _ | .addReg _ _ | .sub _ _ | .shr _ | .subn _ _
  | .shl _ | .sneReg _ _ | .ldI _ | .jpV0 _ | .rnd _ _ | .skp _ | .sknp _ | .ldVxDt _ | .ldVxK _
  | .ldDtVx _ | .ldStVx _ | .addI _ | .ldF _ | .ldB _ | .stRegs _ | .ldRegs _ => true

/-- A byte sequence that `load` accepts: at most 3584 bytes (70_reset_and_hazards.md R139, R140). -/
def imageFits (bytes : List Byte) : Bool := bytes.length ≤ Config.progMaxLen

end Sys2Proof
end

