-- ==== Sys2Proof/Decode.lean ====
section
/-! DEFINITION. Instruction encoding (30_encoding.md): the fields of a word, the two-level decoder of R71,
the encoder, the opcode map of R65 as data, and the ignored bits of R66. -/

namespace Sys2Proof

/-! ## Fields (R55) -/

/-- `op`, bits 15:12. -/
def fieldOp (w : InstrWord) : BitVec 4 := w.extractLsb' 12 4
/-- `x`, bits 11:8. -/
def fieldX (w : InstrWord) : Reg := w.extractLsb' 8 4
/-- `y`, bits 7:4. -/
def fieldY (w : InstrWord) : Reg := w.extractLsb' 4 4
/-- `n`, bits 3:0. -/
def fieldN (w : InstrWord) : BitVec 4 := w.extractLsb' 0 4
/-- `kk`, bits 7:0. -/
def fieldKk (w : InstrWord) : Byte := w.extractLsb' 0 8
/-- `nnn`, bits 11:0. -/
def fieldNnn (w : InstrWord) : BitVec 12 := w.extractLsb' 0 12

/-! ## Decoding (R59 to R64, R71) -/

/-- What a word decodes to: a row of the opcode map, or the no-op of R64, which is no row and so no constructor of
`Instr` (log entry 13). Every word decodes (R67). -/
inductive Decoded where
  | assigned (i : Instr)
  | noOp
  deriving DecidableEq, Repr

/-- Family 0x0, keyed by the low nibble (R60). -/
def decodeFamily0 (w : InstrWord) : Decoded :=
  match fieldN w with
  | 0x0#4 => .assigned .cls
  | 0xE#4 => .assigned .ret
  | _ => .noOp

/-- Family 0x8, keyed by the low nibble (R61). -/
def decodeFamily8 (w : InstrWord) : Decoded :=
  match fieldN w with
  | 0x0#4 => .assigned (.ldReg (fieldX w) (fieldY w))
  | 0x1#4 => .assigned (.orReg (fieldX w) (fieldY w))
  | 0x2#4 => .assigned (.andReg (fieldX w) (fieldY w))
  | 0x3#4 => .assigned (.xorReg (fieldX w) (fieldY w))
  | 0x4#4 => .assigned (.addReg (fieldX w) (fieldY w))
  | 0x5#4 => .assigned (.sub (fieldX w) (fieldY w))
  | 0x6#4 => .assigned (.shr (fieldX w))
  | 0x7#4 => .assigned (.subn (fieldX w) (fieldY w))
  | 0xE#4 => .assigned (.shl (fieldX w))
  | _ => .noOp

/-- Family 0xE, keyed by the low nibble (R62). -/
def decodeFamilyE (w : InstrWord) : Decoded :=
  match fieldN w with
  | 0xE#4 => .assigned (.skp (fieldX w))
  | 0x1#4 => .assigned (.sknp (fieldX w))
  | _ => .noOp

/-- Family 0xF, keyed by the low byte (R63). -/
def decodeFamilyF (w : InstrWord) : Decoded :=
  match fieldKk w with
  | 0x07#8 => .assigned (.ldVxDt (fieldX w))
  | 0x0A#8 => .assigned (.ldVxK (fieldX w))
  | 0x15#8 => .assigned (.ldDtVx (fieldX w))
  | 0x18#8 => .assigned (.ldStVx (fieldX w))
  | 0x1E#8 => .assigned (.addI (fieldX w))
  | 0x29#8 => .assigned (.ldF (fieldX w))
  | 0x33#8 => .assigned (.ldB (fieldX w))
  | 0x55#8 => .assigned (.stRegs (fieldX w))
  | 0x65#8 => .assigned (.ldRegs (fieldX w))
  | _ => .noOp

/-- The decode function, total on all 16-bit words (R71): the top nibble first, then the family's key. The
last arm is top nibble 0xF, the one value left. -/
def decode (w : InstrWord) : Decoded :=
  match fieldOp w with
  | 0x0#4 => decodeFamily0 w
  | 0x1#4 => .assigned (.jp (fieldNnn w))
  | 0x2#4 => .assigned (.call (fieldNnn w))
  | 0x3#4 => .assigned (.seImm (fieldX w) (fieldKk w))
  | 0x4#4 => .assigned (.sneImm (fieldX w) (fieldKk w))
  | 0x5#4 => .assigned (.seReg (fieldX w) (fieldY w))
  | 0x6#4 => .assigned (.ldImm (fieldX w) (fieldKk w))
  | 0x7#4 => .assigned (.addImm (fieldX w) (fieldKk w))
  | 0x8#4 => decodeFamily8 w
  | 0x9#4 => .assigned (.sneReg (fieldX w) (fieldY w))
  | 0xA#4 => .assigned (.ldI (fieldNnn w))
  | 0xB#4 => .assigned (.jpV0 (fieldNnn w))
  | 0xC#4 => .assigned (.rnd (fieldX w) (fieldKk w))
  | 0xD#4 => .assigned (.drw (fieldX w) (fieldY w) (fieldN w).toNat)
  | 0xE#4 => decodeFamilyE w
  | _ => decodeFamilyF w

/-- The instruction word of two bytes, the first supplying bits 15:8 (20_memory.md R43). -/
def wordOfBytes (hi lo : Byte) : InstrWord := hi ++ lo

/-- Why a byte sequence holds no instruction word: fewer than the two bytes of R68 are left. -/
inductive DecodeError where
  | truncated
  deriving DecidableEq, Repr

/-- Decoding from bytes: the first two are one word (R68), the rest is handed back. -/
def decodeBytes : List Byte → Except DecodeError (Decoded × List Byte)
  | hi :: lo :: rest => .ok (decode (wordOfBytes hi lo), rest)
  | _ => .error .truncated

/-! ## Encoding (the canonical spellings of R65; ignored bits 0, R69) -/

/-- A word of shape `nnn` (R56). -/
def wordNnn (op : BitVec 4) (nnn : BitVec 12) : InstrWord := op ++ nnn
/-- A word of shape `x_kk`, and of family 0xF with `kk` its key. -/
def wordXKk (op : BitVec 4) (x : Reg) (kk : Byte) : InstrWord := op ++ (x ++ kk : BitVec 12)
/-- A word of shape `x_y` with the low nibble its key, and of shape `x_y_n`. -/
def wordXYN (op : BitVec 4) (x y : Reg) (n : BitVec 4) : InstrWord := op ++ (x ++ (y ++ n : BitVec 8) : BitVec 12)

/-- The word of an instruction. 00E0, 00EE, Ex9E and ExA1 are spelled as in R65, so their bits 7:4 are the
spelling's; in `5xy0`, `9xy0`, `8xy6` and `8xyE` the ignored bits are 0 (R69; log entry 11). -/
def encode : Instr → InstrWord
  | .cls => 0x00E0#16
  | .ret => 0x00EE#16
  | .jp nnn => wordNnn 0x1#4 nnn
  | .call nnn => wordNnn 0x2#4 nnn
  | .seImm x kk => wordXKk 0x3#4 x kk
  | .sneImm x kk => wordXKk 0x4#4 x kk
  | .seReg x y => wordXYN 0x5#4 x y 0x0#4
  | .ldImm x kk => wordXKk 0x6#4 x kk
  | .addImm x kk => wordXKk 0x7#4 x kk
  | .ldReg x y => wordXYN 0x8#4 x y 0x0#4
  | .orReg x y => wordXYN 0x8#4 x y 0x1#4
  | .andReg x y => wordXYN 0x8#4 x y 0x2#4
  | .xorReg x y => wordXYN 0x8#4 x y 0x3#4
  | .addReg x y => wordXYN 0x8#4 x y 0x4#4
  | .sub x y => wordXYN 0x8#4 x y 0x5#4
  | .shr x => wordXYN 0x8#4 x 0x0#4 0x6#4
  | .subn x y => wordXYN 0x8#4 x y 0x7#4
  | .shl x => wordXYN 0x8#4 x 0x0#4 0xE#4
  | .sneReg x y => wordXYN 0x9#4 x y 0x0#4
  | .ldI nnn => wordNnn 0xA#4 nnn
  | .jpV0 nnn => wordNnn 0xB#4 nnn
  | .rnd x kk => wordXKk 0xC#4 x kk
  | .drw x y n => wordXYN 0xD#4 x y (BitVec.ofNat 4 n)
  | .skp x => wordXKk 0xE#4 x 0x9E#8
  | .sknp x => wordXKk 0xE#4 x 0xA1#8
  | .ldVxDt x => wordXKk 0xF#4 x 0x07#8
  | .ldVxK x => wordXKk 0xF#4 x 0x0A#8
  | .ldDtVx x => wordXKk 0xF#4 x 0x15#8
  | .ldStVx x => wordXKk 0xF#4 x 0x18#8
  | .addI x => wordXKk 0xF#4 x 0x1E#8
  | .ldF x => wordXKk 0xF#4 x 0x29#8
  | .ldB x => wordXKk 0xF#4 x 0x33#8
  | .stRegs x => wordXKk 0xF#4 x 0x55#8
  | .ldRegs x => wordXKk 0xF#4 x 0x65#8

/-- The two bytes of a word as memory holds them, high byte first (20_memory.md R43). -/
def bytesOfWord (w : InstrWord) : List Byte := [w.extractLsb' 8 8, w.extractLsb' 0 8]

/-! ## The opcode map as data (R65) and the ignored bits (R66) -/

/-- One row of the opcode map: a word decodes to the row when `w &&& mask = pattern`. -/
structure OpcodeRow where
  spelling : String
  mask : BitVec 16
  pattern : BitVec 16
  deriving DecidableEq, Repr

/-- Rows of families 0 to 7. -/
def opcodeRowsLow : List OpcodeRow :=
  [⟨"00E0", 0xF00F, 0x0000⟩, ⟨"00EE", 0xF00F, 0x000E⟩, ⟨"1nnn", 0xF000, 0x1000⟩, ⟨"2nnn", 0xF000, 0x2000⟩,
   ⟨"3xkk", 0xF000, 0x3000⟩, ⟨"4xkk", 0xF000, 0x4000⟩, ⟨"5xy0", 0xF000, 0x5000⟩, ⟨"6xkk", 0xF000, 0x6000⟩,
   ⟨"7xkk", 0xF000, 0x7000⟩]

/-- Rows of families 8 and 9. -/
def opcodeRowsAlu : List OpcodeRow :=
  [⟨"8xy0", 0xF00F, 0x8000⟩, ⟨"8xy1", 0xF00F, 0x8001⟩, ⟨"8xy2", 0xF00F, 0x8002⟩, ⟨"8xy3", 0xF00F, 0x8003⟩,
   ⟨"8xy4", 0xF00F, 0x8004⟩, ⟨"8xy5", 0xF00F, 0x8005⟩, ⟨"8xy6", 0xF00F, 0x8006⟩, ⟨"8xy7", 0xF00F, 0x8007⟩,
   ⟨"8xyE", 0xF00F, 0x800E⟩, ⟨"9xy0", 0xF000, 0x9000⟩]

/-- Rows of families A to F. -/
def opcodeRowsHigh : List OpcodeRow :=
  [⟨"Annn", 0xF000, 0xA000⟩, ⟨"Bnnn", 0xF000, 0xB000⟩, ⟨"Cxkk", 0xF000, 0xC000⟩, ⟨"Dxyn", 0xF000, 0xD000⟩,
   ⟨"Ex9E", 0xF00F, 0xE00E⟩, ⟨"ExA1", 0xF00F, 0xE001⟩, ⟨"Fx07", 0xF0FF, 0xF007⟩, ⟨"Fx0A", 0xF0FF, 0xF00A⟩,
   ⟨"Fx15", 0xF0FF, 0xF015⟩, ⟨"Fx18", 0xF0FF, 0xF018⟩, ⟨"Fx1E", 0xF0FF, 0xF01E⟩, ⟨"Fx29", 0xF0FF, 0xF029⟩,
   ⟨"Fx33", 0xF0FF, 0xF033⟩, ⟨"Fx55", 0xF0FF, 0xF055⟩, ⟨"Fx65", 0xF0FF, 0xF065⟩]

/-- The 34 rows of R65. -/
def opcodeRows : List OpcodeRow := opcodeRowsLow ++ opcodeRowsAlu ++ opcodeRowsHigh

/-- The canonical spelling of an instruction's row in R65. -/
def Instr.spelling : Instr → String
  | .cls => "00E0" | .ret => "00EE" | .jp _ => "1nnn" | .call _ => "2nnn" | .seImm _ _ => "3xkk"
  | .sneImm _ _ => "4xkk" | .seReg _ _ => "5xy0" | .ldImm _ _ => "6xkk" | .addImm _ _ => "7xkk"
  | .ldReg _ _ => "8xy0" | .orReg _ _ => "8xy1" | .andReg _ _ => "8xy2" | .xorReg _ _ => "8xy3"
  | .addReg _ _ => "8xy4" | .sub _ _ => "8xy5" | .shr _ => "8xy6" | .subn _ _ => "8xy7" | .shl _ => "8xyE"
  | .sneReg _ _ => "9xy0" | .ldI _ => "Annn" | .jpV0 _ => "Bnnn" | .rnd _ _ => "Cxkk" | .drw _ _ _ => "Dxyn"
  | .skp _ => "Ex9E" | .sknp _ => "ExA1" | .ldVxDt _ => "Fx07" | .ldVxK _ => "Fx0A" | .ldDtVx _ => "Fx15"
  | .ldStVx _ => "Fx18" | .addI _ => "Fx1E" | .ldF _ => "Fx29" | .ldB _ => "Fx33" | .stRegs _ => "Fx55"
  | .ldRegs _ => "Fx65"

/-- The bits of a word that neither select the instruction nor feed an operand (R66). -/
def Instr.ignoredBits : Instr → BitVec 16
  | .cls | .ret => 0x0FF0#16
  | .seReg _ _ | .sneReg _ _ => 0x000F#16
  | .shr _ | .shl _ | .skp _ | .sknp _ => 0x00F0#16
  | .jp _ | .call _ | .seImm _ _ | .sneImm _ _ | .ldImm _ _ | .addImm _ _ | .ldReg _ _ | .orReg _ _
  | .andReg _ _ | .xorReg _ _ | .addReg _ _ | .sub _ _ | .subn _ _ | .ldI _ | .jpV0 _ | .rnd _ _
  | .drw _ _ _ | .ldVxDt _ | .ldVxK _ | .ldDtVx _ | .ldStVx _ | .addI _ | .ldF _ | .ldB _ | .stRegs _
  | .ldRegs _ => 0x0000#16

/-! ## The host's view of the decoder -/

/-- The word of `nbits` bits that the opcode table numbers with bit 0 least significant; bits above `nbits`
are 0, and an instruction is one word (R68; log entry 15). -/
def tableWord (nbits w : Nat) : InstrWord := BitVec.ofNat 16 (w % 2 ^ nbits)

/-- The instruction the decoder reads from a table word laid out in memory order; `none` for the no-op. -/
def decodeTableWord (nbits w : Nat) : Option Instr :=
  match decodeBytes (bytesOfWord (tableWord nbits w)) with
  | .ok (.assigned i, _) => some i
  | .ok (.noOp, _) => none
  | .error _ => none

end Sys2Proof
end

