-- ==== Sys2Proof/Machine/State.lean ====
section
/-! DEFINITION. The state of the core (10_state.md R18 to R37), its reset value (R36), and the reasons a step
can stop. State is plain data. -/

namespace Sys2Proof.Machine

/-- The six fault kinds of 10_state.md R34, with their cause codes 1 to 6 in this order. A fault of the core is
state, not a stop of the model: the cycle that raises one answers a next state whose `fault` holds the kind
(40_cycle_driver.md R79; log entry 1). -/
inductive FaultKind where
  /-- Code 1, raised by the cycle driver's fetch (60_exceptions.md R119). -/
  | fetchOutOfRange
  /-- Code 2, raised by CALL (R120). -/
  | stackOverflow
  /-- Code 3, raised by RET (R121). -/
  | stackUnderflow
  /-- Code 4, raised by DRW, LD B, LD [I] and LD Vx,[I] (R122). -/
  | memoryOutOfRange
  /-- Code 5, raised by DRW (R123). -/
  | spriteOutOfRange
  /-- Code 6, raised by SKP and SKNP (R124). -/
  | keyIndexOutOfRange
  deriving DecidableEq, Repr

/-- Why the model itself stops. No rule of the spec stops the model; one condition outside the spec does. -/
inductive Fault where
  /-- Raised by RET when `SP > 16`: the slot `STACK[SP - 1]` does not exist. 10_state.md R25 says SP never
  leaves 0..16 and 91_not_in_source.md N11 gives such values no meaning. No run from reset reaches it.
  DESIGN CHOICE, safe: log entry 2. -/
  | stackSlotAbsent
  deriving DecidableEq, Repr

/-- Why the model gives an instruction no meaning. -/
inductive Refusal where
  /-- Answered by an arm of `exec` that has no meaning yet; safe. Every arm has its meaning, so nothing
  answers it. -/
  | notModelled (mnemonic : String)
  deriving DecidableEq, Repr

/-- The 16 key flags, `KEYS[k]` true when key k is held (10_state.md R32). -/
abbrev Keys := Vector Bool 16

/-- The two inputs of `Cycle(KEYS, RND)` (40_cycle_driver.md R72). -/
structure CycleInput where
  keys : Keys
  rnd : Byte
  deriving DecidableEq, Repr

/-- The framebuffer: 32 rows of 64 cells, true when set; `FB[x, y]` is cell x of row y (10_state.md R29). -/
abbrev Framebuffer := Vector (Vector Bool 64) 32

/-- The memory image: the bytes that differ from the reset contents, as address and byte, by rising address
(`Memory.wf` of Memory.lean is the form). -/
abbrev Memory := List Host.Cell

/-- The state tuple of 10_state.md R18, and below it the model's own fields. -/
structure State where
  /-- `MEM`, 4096 bytes (R28). -/
  mem : Memory
  /-- `V0..VF` (R19). -/
  v : Vector Byte 16
  /-- `I`, the index register (R22). -/
  i : Addr
  /-- `PC`; between cycles the address of the next instruction (R23). -/
  pc : Addr
  /-- `STACK[0..15]` (R24). -/
  stack : Vector Addr 16
  /-- `SP`, the number of return addresses on the stack (R25). -/
  sp : Byte
  /-- `DT`, the delay timer (R26). -/
  dt : Byte
  /-- `ST`, the sound timer (R27). -/
  st : Byte
  /-- `FB` (R29). -/
  fb : Framebuffer
  /-- `FAULT`, `none` or one kind, sticky (R34). -/
  fault : Option FaultKind
  /-- The model's own: the parameter `FONT` (00_scope.md R8), which no step changes (log entry 5). -/
  font : Vector Byte 80
  /-- The model's own: the inputs the host supplies for the coming cycles, next first; beyond them every
  input is a free value (log entries 3 and 4). -/
  inputs : List CycleInput
  /-- The model's own: how many cycles have completed, the argument of the free values (log entry 6). -/
  cycle : Nat
  deriving DecidableEq, Repr

/-- The state after reset (10_state.md R36, 70_reset_and_hazards.md R137). `mem` lists nothing: an unlisted
byte reads as its reset contents, `FONT` at 0x050..0x09F and 0 elsewhere. That FB is clear is the spec's decision
(D13). How a program comes to run from here: log entry 9. -/
def State.reset : State where
  mem := []
  v := Vector.replicate 16 0
  i := 0
  pc := 0x200
  stack := Vector.replicate 16 0
  sp := 0
  dt := 0
  st := 0
  fb := Vector.replicate 32 (Vector.replicate 64 false)
  fault := none
  font := Config.font
  inputs := []
  cycle := 0

end Sys2Proof.Machine
end

