-- ==== Sys2Proof/Machine/Memory.lean ====
section
/-! DEFINITION. The memory image: what an unlisted byte reads as, reading and writing one byte, and the one
canonical form that makes equal memories equal lists. -/

namespace Sys2Proof.Machine

/-- What the byte at `a` reads as when nothing is listed for it: its reset contents, `FONT` at
0x050..0x09F (glyph d at 0x050 + 5*d, 20_memory.md R41) and 0 everywhere else (10_state.md R36). -/
def resetByte (font : Vector Byte 80) (a : Nat) : Byte :=
  if h : 0x050 ≤ a ∧ a ≤ 0x09F then font[a - 0x050] else 0

/-- The byte at `a`. -/
def Memory.read (font : Vector Byte 80) : Memory → Nat → Byte
  | [], a => resetByte font a
  | (b, w) :: m, a => if a = b then w else Memory.read font m a

/-- The tail `m` with a cell for `a` in front, left out when it says what an unlisted byte says. -/
def Memory.place (font : Vector Byte 80) (a : Nat) (w : Byte) (m : Memory) : Memory :=
  if w = resetByte font a then m else (a, w) :: m

/-- Set the byte at `a` to `w`, keeping the canonical form. -/
def Memory.write (font : Vector Byte 80) (a : Nat) (w : Byte) : Memory → Memory
  | [] => Memory.place font a w []
  | (b, u) :: m =>
    if a < b then Memory.place font a w ((b, u) :: m)
    else if a = b then Memory.place font a w m
    else (b, u) :: Memory.write font a w m

/-- Every address of the image is at least `lo`, rises strictly, lies in 0x000..0xFFF (20_memory.md R38), and
no cell says what an unlisted byte says. -/
def Memory.wfFrom (font : Vector Byte 80) : Nat → Memory → Bool
  | _, [] => true
  | lo, (a, w) :: m => lo ≤ a && a < Config.memSize && w != resetByte font a && Memory.wfFrom font (a + 1) m

/-- The canonical form of a memory image. -/
def Memory.wf (font : Vector Byte 80) (m : Memory) : Bool := Memory.wfFrom font 0 m

end Sys2Proof.Machine
end

