-- ==== Sys2Proof/Machine/Ops.lean ====
section
/-! DEFINITION. The named operations over the state that the meanings share: registers, stack, timers, memory,
framebuffer, the cycle's inputs, raising a fault, fetching a word and ending a cycle. What a total function here
answers outside its range no meaning uses (log entry 14). -/

namespace Sys2Proof.Machine

/-- The outcomes of `exec` and `step`. -/
abbrev Result := Host.Outcome State Fault Refusal

/-! ## Registers -/

/-- `V[x]`; no register is hardwired (10_state.md R19). -/
def State.reg (s : State) (x : Reg) : Byte := s.v[x.toNat]'x.isLt

/-- `V[x] <- b`. -/
def State.setReg (s : State) (x : Reg) (b : Byte) : State := { s with v := s.v.set x.toNat b x.isLt }

/-- `V[x] <- b; V[0xF] <- flag`: the flag is written after the destination, so it is what remains in VF when
x = 0xF (00_scope.md R13). -/
def State.setRegFlag (s : State) (x : Reg) (b flag : Byte) : State := (s.setReg x b).setReg vf flag

/-- `V[k] <- bs[0]; V[k+1] <- bs[1]; …`, ascending (43_index_memory.md R107). -/
def State.setRegs : State → Nat → List Byte → State
  | s, _, [] => s
  | s, k, b :: bs => (s.setReg (BitVec.ofNat 4 k) b).setRegs (k + 1) bs

/-- `V0..Vx` in ascending order (43_index_memory.md R106). -/
def State.regsUpTo (s : State) (x : Reg) : List Byte :=
  (List.range (x.toNat + 1)).map fun k => s.reg (BitVec.ofNat 4 k)

/-- `I <- a`. -/
def State.setI (s : State) (a : Addr) : State := { s with i := a }

/-- `PC <- a`. -/
def State.setPc (s : State) (a : Addr) : State := { s with pc := a }

/-- `PC <- (PC + 2) mod 2^16`: the advance before dispatch (40_cycle_driver.md R75), and what a taken skip adds
again (41_control_flow.md R84). -/
def State.advancePc (s : State) : State := s.setPc (s.pc + 2#16)

/-- A skip instruction's whole effect: the advance, and 2 more when `taken` (41_control_flow.md R84 to R87). -/
def State.skipIf (s : State) (taken : Bool) : State := if taken then s.advancePc.advancePc else s.advancePc

/-- `DT <- b`. -/
def State.setDt (s : State) (b : Byte) : State := { s with dt := b }

/-- `ST <- b`. -/
def State.setSt (s : State) (b : Byte) : State := { s with st := b }

/-! ## The return stack (10_state.md R24, R25) -/

/-- `STACK[SP] <- a; SP <- SP + 1`. Used with SP < 16; a slot that does not exist is not written. -/
def State.push (s : State) (a : Addr) : State :=
  { s with stack := s.stack.setIfInBounds s.sp.toNat a, sp := s.sp + 1#8 }

/-- `STACK[j]`, for a slot that exists. -/
def State.slot (s : State) (j : Nat) : Option Addr := s.stack[j]?

/-! ## Memory (20_memory.md) -/

/-- The byte at `a` (`MEM[a]`). -/
def State.peek (s : State) (a : Nat) : Byte := Memory.read s.font s.mem a

/-- `MEM[a] <- b`. -/
def State.poke (s : State) (a : Nat) (b : Byte) : State := { s with mem := Memory.write s.font a b s.mem }

/-- `MEM[a] <- bs[0]; MEM[a+1] <- bs[1]; …`, ascending (20_memory.md R44). -/
def State.pokeAll : State → Nat → List Byte → State
  | s, _, [] => s
  | s, a, b :: bs => (s.poke a b).pokeAll (a + 1) bs

/-- `MEM[a], MEM[a+1], …`: `n` bytes, ascending (20_memory.md R44). -/
def State.peekAll (s : State) : Nat → Nat → List Byte
  | _, 0 => []
  | a, n + 1 => s.peek a :: s.peekAll (a + 1) n

/-- Every one of the `n` addresses from `a` on, computed without wrap-around, is at most 0xFFF
(20_memory.md R45). -/
def blockInMemory (a n : Nat) : Bool := n = 0 || a + n ≤ Config.memSize

/-- `MemRead(a, 1)` (20_memory.md R47). -/
def memRead (s : State) (a : Nat) : Except FaultKind Byte :=
  if a ≤ 0xFFF then .ok (s.peek a) else .error .memoryOutOfRange

/-- `MemWrite(a, 1, b)` (20_memory.md R47). -/
def memWrite (s : State) (a : Nat) (b : Byte) : Except FaultKind State :=
  if a ≤ 0xFFF then .ok (s.poke a b) else .error .memoryOutOfRange

/-- Read `n` bytes from `a`, all addresses checked first (20_memory.md R45). -/
def readBlock (s : State) (a n : Nat) : Except FaultKind (List Byte) :=
  if blockInMemory a n then .ok (s.peekAll a n) else .error .memoryOutOfRange

/-- Write `bs` from `a`, all addresses checked before any byte is written (20_memory.md R45). -/
def writeBlock (s : State) (a : Nat) (bs : List Byte) : Except FaultKind State :=
  if blockInMemory a bs.length then .ok (s.pokeAll a bs) else .error .memoryOutOfRange

/-! ## Framebuffer (10_state.md R29) -/

/-- Every cell clear. -/
def fbClear : Framebuffer := Vector.replicate 32 (Vector.replicate 64 false)

/-- `FB[x, y]`; there is no cell past the edge, where this total function answers `false`. -/
def fbCell (fb : Framebuffer) (x y : Nat) : Bool := if h : y < 32 ∧ x < 64 then fb[y][x] else false

/-- `FB[x, y] <- not FB[x, y]`; nothing past the edge. -/
def fbFlip (fb : Framebuffer) (x y : Nat) : Framebuffer :=
  if h : y < 32 ∧ x < 64 then fb.set y (fb[y].set x (!fb[y][x])) else fb

/-- `FB[x, y]` of a state. -/
def State.cell (s : State) (x y : Nat) : Bool := fbCell s.fb x y

/-- `FB <- fb`. -/
def State.setFb (s : State) (fb : Framebuffer) : State := { s with fb := fb }

/-! ## The cycle's inputs (10_state.md R32, R33) -/

/-- The inputs of the coming cycle: what the host has supplied, else free values. -/
def State.input (s : State) : CycleInput :=
  match s.inputs with
  | inp :: _ => inp
  | [] => ⟨Config.freeKeys s.cycle, Config.freeRnd s.cycle⟩

/-- `KEYS[k]` for a key number 0..15. -/
def State.keyHeld (s : State) (k : Nat) : Bool := if h : k < 16 then s.input.keys[k] else false

/-- `RND`. -/
def State.rnd (s : State) : Byte := s.input.rnd

/-! ## Faults (60_exceptions.md) -/

/-- `raise Fault(kind)` in a cycle that began in `s`: the state is `s` with `FAULT <- kind`, and everything the
cycle did is discarded (40_cycle_driver.md R79, 60_exceptions.md R118). A meaning raises it on the state it was
given, where PC still holds the instruction's address. There is no return from a fault (R128): only reset clears
FAULT (R126). -/
def State.raiseFault (s : State) (k : FaultKind) : State := { s with fault := some k }

/-- The outcome of a handler that ran or raised, for a cycle that began in `s`. -/
def settle (s : State) : Except FaultKind State → Result
  | .ok t => .next t
  | .error k => .next (s.raiseFault k)

/-! ## The cycle driver's parts (40_cycle_driver.md) -/

/-- Fetching is allowed at `PC`: 0x200 <= PC and PC + 1 <= 0xFFF, without wrap-around (20_memory.md R42). -/
def State.fetchable (s : State) : Bool := Config.progBase ≤ s.pc.toNat && s.pc.toNat + 1 ≤ 0xFFF

/-- `MEM[PC] ++ MEM[PC+1]` (40_cycle_driver.md R74). -/
def State.fetchWord (s : State) : InstrWord := wordOfBytes (s.peek s.pc.toNat) (s.peek (s.pc.toNat + 1))

/-- One tick of a timer: down by one, never below 0 (40_cycle_driver.md R77). -/
def tick (b : Byte) : Byte := if b = 0#8 then b else b - 1#8

/-- The end of a cycle: a cycle that raised no fault decrements both timers (40_cycle_driver.md R77) and has
used up its inputs; a faulted cycle commits nothing (R79) and, in this model, uses up nothing (log entry 16). -/
def State.endCycle (s : State) : State :=
  match s.fault with
  | none => { s with dt := tick s.dt, st := tick s.st, inputs := s.inputs.tail, cycle := s.cycle + 1 }
  | some _ => s

/-- The end of a cycle on an outcome of `exec`. -/
def endOutcome : Result → Result
  | .next t => .next t.endCycle
  | .fault r => .fault r
  | .refused r => .refused r

/-- Store a word where the next fetch reads it: at PC, or at 0x200 where PC is outside the fetch region; a
faulted core fetches nothing, so FAULT is cleared too (log entry 10). -/
def State.placeWord (s : State) (w : InstrWord) : State :=
  let at0 := if s.fetchable then s else s.setPc 0x200#16
  let ready : State := { at0 with fault := none }
  ready.pokeAll ready.pc.toNat (bytesOfWord w)

end Sys2Proof.Machine
end

