-- ==== Sys2Proof/Machine/Operands.lean ====
section
/-! DEFINITION. Operand forms and the values instructions compute from them: widened immediates, glyph
addresses, decimal digits, sprite pixels, key numbers. Shapes are those of 30_encoding.md R56 to R58. -/

namespace Sys2Proof.Machine

/-- `zext_16(nnn)` (30_encoding.md R57). -/
def zextAddr (nnn : BitVec 12) : Addr := nnn.setWidth 16

/-- `zext_16(a)` of a register value. -/
def zextByte (a : Byte) : Addr := a.setWidth 16

/-- `0x050 + 5 * a`, with `a` whole, not masked to 4 bits (43_index_memory.md R104). -/
def glyphAddr (a : Byte) : Addr := BitVec.ofNat 16 (Config.fontBase + Config.glyphBytes * a.toNat)

/-- The three decimal digits of `b`, hundreds first (43_index_memory.md R105). -/
def bcdDigits (b : Byte) : List Byte :=
  [BitVec.ofNat 8 (b.toNat / 100), BitVec.ofNat 8 (b.toNat / 10 % 10), BitVec.ofNat 8 (b.toNat % 10)]

/-- The lowest-numbered held key (45_timers_keys.md R114). -/
def State.firstHeld (s : State) : Option Nat := (List.range 16).find? fun k => s.keyHeld k

/-- The columns `c` of the set bits of a sprite row, left to right: bit 7 is column 0 (00_scope.md R9). -/
def rowColumns (row : Byte) : List Nat := (List.range 8).filter fun c => row.getLsbD (7 - c)

/-- The framebuffer coordinates of a sprite's set bits in drawing order, rows from `oy` on, unwrapped
(44_display.md R109). -/
def spritePixels (ox : Nat) : Nat → List Byte → List (Nat × Nat)
  | _, [] => []
  | oy, row :: rows => (rowColumns row).map (fun c => (ox + c, oy)) ++ spritePixels ox (oy + 1) rows

/-- Every set bit falls on the framebuffer (44_display.md R109, 60_exceptions.md R123). -/
def pixelsOnScreen (ps : List (Nat × Nat)) : Bool := ps.all fun p => p.1 ≤ 63 && p.2 ≤ 31

end Sys2Proof.Machine
end

