-- ==== Sys2Proof/Machine/Flags.lean ====
section
/-! DEFINITION. The values VF takes (10_state.md R21): carry, NOT-borrow, the bit shifted out, collision. Each is
computed from the operands as they were before the instruction wrote anything (00_scope.md R13). -/

namespace Sys2Proof.Machine

/-- A flag as the byte VF holds: 1 or 0. -/
def flagByte (b : Bool) : Byte := if b then 1#8 else 0#8

/-- Carry of `a + b`, from the unwrapped sum (42_alu.md R89, R96). -/
def carry (a b : Byte) : Bool := 255 < a.toNat + b.toNat

/-- NOT-borrow of `a - b`: the minuend strictly greater than the subtrahend (42_alu.md R89, R97, R99). -/
def notBorrow (a b : Byte) : Bool := b.toNat < a.toNat

/-- The bit a right shift by one drops (42_alu.md R98). -/
def shiftedOutLow (a : Byte) : Bool := a.getLsbD 0

/-- The bit a left shift by one drops (42_alu.md R100). -/
def shiftedOutHigh (a : Byte) : Bool := a.getLsbD 7

/-- Draw the pixels one by one: a cell already set makes the collision flag 1, and every cell is flipped
(44_display.md R109). -/
def drawPixels : List (Nat × Nat) → Framebuffer → Bool → Framebuffer × Bool
  | [], fb, col => (fb, col)
  | (x, y) :: ps, fb, col => drawPixels ps (fbFlip fb x y) (col || fbCell fb x y)

end Sys2Proof.Machine
end

