-- ==== Sys2Proof/Machine/Alu.lean ====
section
/-! DEFINITION. Register loads, the 8-bit ALU and the random byte (42_alu.md). Operands are read before any write,
results wrap modulo 256 (R89), and a flag is written after the destination. -/

namespace Sys2Proof.Machine

/-- R90: `V[x] <- kk`. -/
def execLdImm (x : Reg) (kk : Byte) (s : State) : Result := .next (s.advancePc.setReg x kk)

/-- R91: `V[x] <- (V[x] + kk) mod 2^8`; no flag. -/
def execAddImm (x : Reg) (kk : Byte) (s : State) : Result := .next (s.advancePc.setReg x (s.reg x + kk))

/-- R92: `V[x] <- V[y]`. -/
def execLdReg (x y : Reg) (s : State) : Result := .next (s.advancePc.setReg x (s.reg y))

/-- R93: `V[x] <- V[x] OR V[y]`; VF unchanged unless x = 0xF. -/
def execOrReg (x y : Reg) (s : State) : Result := .next (s.advancePc.setReg x (s.reg x ||| s.reg y))

/-- R94: `V[x] <- V[x] AND V[y]`; VF unchanged unless x = 0xF. -/
def execAndReg (x y : Reg) (s : State) : Result := .next (s.advancePc.setReg x (s.reg x &&& s.reg y))

/-- R95: `V[x] <- V[x] XOR V[y]`; VF unchanged unless x = 0xF. -/
def execXorReg (x y : Reg) (s : State) : Result := .next (s.advancePc.setReg x (s.reg x ^^^ s.reg y))

/-- R96: the sum mod 2^8, then VF = carry. -/
def execAddReg (x y : Reg) (s : State) : Result :=
  .next (s.advancePc.setRegFlag x (s.reg x + s.reg y) (flagByte (carry (s.reg x) (s.reg y))))

/-- R97: `V[x] - V[y]` mod 2^8, then VF = NOT-borrow. -/
def execSub (x y : Reg) (s : State) : Result :=
  .next (s.advancePc.setRegFlag x (s.reg x - s.reg y) (flagByte (notBorrow (s.reg x) (s.reg y))))

/-- R98: `V[x] >> 1`, then VF = the old bit 0. -/
def execShr (x : Reg) (s : State) : Result :=
  .next (s.advancePc.setRegFlag x (s.reg x >>> 1) (flagByte (shiftedOutLow (s.reg x))))

/-- R99: `V[y] - V[x]` mod 2^8, then VF = NOT-borrow. -/
def execSubn (x y : Reg) (s : State) : Result :=
  .next (s.advancePc.setRegFlag x (s.reg y - s.reg x) (flagByte (notBorrow (s.reg y) (s.reg x))))

/-- R100: `(V[x] * 2) mod 2^8`, then VF = the old bit 7. -/
def execShl (x : Reg) (s : State) : Result :=
  .next (s.advancePc.setRegFlag x (s.reg x <<< 1) (flagByte (shiftedOutHigh (s.reg x))))

/-- R101: `V[x] <- RND AND kk`. -/
def execRnd (x : Reg) (kk : Byte) (s : State) : Result := .next (s.advancePc.setReg x (s.rnd &&& kk))

end Sys2Proof.Machine
end

