-- ==== Sys2Proof/Machine/ControlFlow.lean ====
section
/-! DEFINITION. Control transfer (41_control_flow.md): return, jumps, call, skips, and the no-op of
30_encoding.md R64. Each meaning gets the state at the start of the cycle, with PC at the instruction, and makes
the advance of 40_cycle_driver.md R75 itself (log entry 7). -/

namespace Sys2Proof.Machine

/-- The no-op of an unassigned word: only the PC advance (30_encoding.md R64). -/
def execNoOp (s : State) : Result := .next s.advancePc

/-- R81: `if SP = 0: raise StackUnderflow; SP <- SP - 1; PC <- STACK[SP]`. The popped slot keeps its value. A
slot that does not exist (SP > 16, a state no run reaches) stops the model: log entry 2. -/
def execRet (s : State) : Result :=
  if s.sp = 0#8 then .next (s.raiseFault .stackUnderflow)
  else
    match s.slot (s.sp - 1#8).toNat with
    | some a => .next { s.setPc a with sp := s.sp - 1#8 }
    | none => .fault .stackSlotAbsent

/-- R82: `PC <- zext_16(nnn)`. -/
def execJp (nnn : BitVec 12) (s : State) : Result := .next (s.setPc (zextAddr nnn))

/-- R83: `if SP >= 16: raise StackOverflow; STACK[SP] <- PC; SP <- SP + 1; PC <- zext_16(nnn)`. The PC pushed is
the advanced one. -/
def execCall (nnn : BitVec 12) (s : State) : Result :=
  if Config.stackDepth ≤ s.sp.toNat then .next (s.raiseFault .stackOverflow)
  else .next ((s.push s.advancePc.pc).setPc (zextAddr nnn))

/-- R84: skip when `V[x] = kk`. -/
def execSeImm (x : Reg) (kk : Byte) (s : State) : Result := .next (s.skipIf (s.reg x == kk))

/-- R85: skip when `V[x] != kk`. -/
def execSneImm (x : Reg) (kk : Byte) (s : State) : Result := .next (s.skipIf (s.reg x != kk))

/-- R86: skip when `V[x] = V[y]`. -/
def execSeReg (x y : Reg) (s : State) : Result := .next (s.skipIf (s.reg x == s.reg y))

/-- R87: skip when `V[x] != V[y]`. -/
def execSneReg (x y : Reg) (s : State) : Result := .next (s.skipIf (s.reg x != s.reg y))

/-- R88: `PC <- zext_16(V[0]) + zext_16(nnn)`, not masked to 12 bits. -/
def execJpV0 (nnn : BitVec 12) (s : State) : Result :=
  .next (s.setPc (zextByte (s.reg 0x0#4) + zextAddr nnn))

end Sys2Proof.Machine
end

