-- ==== Sys2Proof/Machine/Display.lean ====
section
/-! DEFINITION. The framebuffer instructions (44_display.md). -/

namespace Sys2Proof.Machine

/-- R108: every cell clear; VF unchanged. -/
def execCls (s : State) : Result := .next (s.advancePc.setFb fbClear)

/-- The origin column of DRW: only the origin wraps (44_display.md R109). -/
def originX (s : State) (x : Reg) : Nat := (s.reg x).toNat % Config.fbWidth

/-- The origin row of DRW. -/
def originY (s : State) (y : Reg) : Nat := (s.reg y).toNat % Config.fbHeight

/-- Draw the sprite `rows` at an origin, or raise `SpriteOutOfRange` when a set bit falls off the edge
(44_display.md R109). VF is written last, 1 on a collision and else 0. -/
def drawSprite (s : State) (ox oy : Nat) (rows : List Byte) : Except FaultKind State :=
  if pixelsOnScreen (spritePixels ox oy rows) then
    let drawn := drawPixels (spritePixels ox oy rows) s.fb false
    .ok ((s.setFb drawn.1).setReg vf (flagByte drawn.2))
  else .error .spriteOutOfRange

/-- R109: read the `n` sprite bytes at I (MemoryOutOfRange comes first), then draw them with the origin read
before VF is written. -/
def execDrw (x y : Reg) (n : Nat) (s : State) : Result :=
  settle s ((readBlock s s.i.toNat n).bind (drawSprite s.advancePc (originX s x) (originY s y)))

end Sys2Proof.Machine
end

