-- ==== Sys2Proof/Machine/IndexMemory.lean ====
section
/-! DEFINITION. The index register and memory transfer (43_index_memory.md). The effective address is `I + k`,
computed exactly as an unbounded integer; no transfer changes I. -/

namespace Sys2Proof.Machine

/-- R102: `I <- zext_16(nnn)`. -/
def execLdI (nnn : BitVec 12) (s : State) : Result := .next (s.advancePc.setI (zextAddr nnn))

/-- R103: `I <- (I + V[x]) mod 2^16`; no flag. -/
def execAddI (x : Reg) (s : State) : Result := .next (s.advancePc.setI (s.i + zextByte (s.reg x)))

/-- R104: `I <- 0x050 + 5 * V[x]`. -/
def execLdF (x : Reg) (s : State) : Result := .next (s.advancePc.setI (glyphAddr (s.reg x)))

/-- R105: store the three decimal digits of V[x] at I, I+1, I+2. -/
def execLdB (x : Reg) (s : State) : Result :=
  settle s (writeBlock s.advancePc s.i.toNat (bcdDigits (s.reg x)))

/-- R106: store V0..Vx at I..I+x. -/
def execStRegs (x : Reg) (s : State) : Result :=
  settle s (writeBlock s.advancePc s.i.toNat (s.regsUpTo x))

/-- R107: load V0..Vx from I..I+x. -/
def execLdRegs (x : Reg) (s : State) : Result :=
  settle s ((readBlock s s.i.toNat (x.toNat + 1)).map fun bs => s.advancePc.setRegs 0 bs)

end Sys2Proof.Machine
end

