-- ==== Sys2Proof/Machine/TimersKeys.lean ====
section
/-! DEFINITION. Key input and timers (45_timers_keys.md). The end-of-cycle decrement is the cycle driver's. -/

namespace Sys2Proof.Machine

/-- R111: `k <- V[x]; if k > 15: raise KeyIndexOutOfRange;` skip when key k is held. -/
def execSkp (x : Reg) (s : State) : Result :=
  if 15 < (s.reg x).toNat then .next (s.raiseFault .keyIndexOutOfRange)
  else .next (s.skipIf (s.keyHeld (s.reg x).toNat))

/-- R112: as R111, skip when key k is not held. -/
def execSknp (x : Reg) (s : State) : Result :=
  if 15 < (s.reg x).toNat then .next (s.raiseFault .keyIndexOutOfRange)
  else .next (s.skipIf (!s.keyHeld (s.reg x).toNat))

/-- R113: `V[x] <- DT`. -/
def execLdVxDt (x : Reg) (s : State) : Result := .next (s.advancePc.setReg x s.dt)

/-- R114: the lowest-numbered held key to V[x]; with no key held `PC <- (PC - 2) mod 2^16` after the advance, so
the instruction runs again. -/
def execLdVxK (x : Reg) (s : State) : Result :=
  .next (match s.firstHeld with
    | some k => s.advancePc.setReg x (BitVec.ofNat 8 k)
    | none => s.setPc (s.advancePc.pc - 2#16))

/-- R115: `DT <- V[x]`. -/
def execLdDtVx (x : Reg) (s : State) : Result := .next (s.advancePc.setDt (s.reg x))

/-- R116: `ST <- V[x]`. -/
def execLdStVx (x : Reg) (s : State) : Result := .next (s.advancePc.setSt (s.reg x))

end Sys2Proof.Machine
end

