-- ==== Sys2Proof/Machine/Step.lean ====
section
/-! DEFINITION. One cycle of the core (40_cycle_driver.md R72): fetch, PC advance, dispatch, timer decrement, in
that order. Every part is an operation of Ops.lean. -/

namespace Sys2Proof.Machine

/-- What a fetched and decoded word does (R76, and R64 for the no-op). -/
def execDecoded (d : Decoded) (s : State) : Host.Outcome State Fault Refusal :=
  match d with
  | .assigned i => exec i s
  | .noOp => execNoOp s

/-- `Cycle(KEYS, RND)` (R72), the inputs being those of `State.input`: a faulted core changes nothing
(60_exceptions.md R126); a PC outside the fetch region faults before the fetch (R119); else the word at PC runs
and the cycle ends. -/
def step (s : State) : Host.Outcome State Fault Refusal :=
  if s.fault.isSome then .next s
  else if s.fetchable then endOutcome (execDecoded (decode s.fetchWord) s)
  else .next (s.raiseFault .fetchOutOfRange)

/-- `s` with an instruction word, its bits numbered as the opcode table numbers them, stored where the next step
fetches. -/
def State.withFetchWord (s : State) (nbits w : Nat) : State := s.placeWord (tableWord nbits w)

end Sys2Proof.Machine
end

