-- ==== Sys2Proof/Machine/Ports.lean ====
section
/-! DEFINITION. The host's ports (10_state.md R35): reset, load, cycle, and the three observation ports. The host
uses them between cycles only (20_memory.md R50); none of them is a step (log entry 17). -/

namespace Sys2Proof.Machine

/-- Why `load` fails (70_reset_and_hazards.md R140); FAULT is not touched (60_exceptions.md R130). -/
inductive LoadError where
  | tooLong
  deriving DecidableEq, Repr

/-- The `reset` port (70_reset_and_hazards.md R137): every component of R36 at its reset value. FONT is the core's
constant and the inputs are the host's, so they stay (log entry 8). -/
def resetPort (s : State) : State :=
  { State.reset with font := s.font, inputs := s.inputs, cycle := s.cycle }

/-- The `load` port (R139): the bytes go to 0x200 on, and all else keeps its value; more than 3584 bytes change
nothing (R140). -/
def load (bytes : List Byte) (s : State) : Except LoadError State :=
  if imageFits bytes then .ok (s.pokeAll Config.progBase bytes) else .error .tooLong

/-- The `cycle(KEYS, RND)` port (40_cycle_driver.md R72): one step with the inputs the host gives, which are gone
after it. -/
def cycle (keys : Keys) (rnd : Byte) (s : State) : Host.Outcome State Fault Refusal :=
  match step { s with inputs := [⟨keys, rnd⟩] } with
  | .next t => .next { t with inputs := s.inputs }
  | .fault r => .fault r
  | .refused r => .refused r

/-- The `fb_out` port: the 2048 cells row-major, cell (x, y) at index y*64 + x (10_state.md R29). -/
def fbOut (s : State) : List Bool := (s.fb.toList.map Vector.toList).flatten

/-- The `sound_out` port: ST (10_state.md R27). -/
def soundOut (s : State) : Byte := s.st

/-- The cause code of a fault kind (10_state.md R34). -/
def FaultKind.code : FaultKind → BitVec 3
  | .fetchOutOfRange => 1#3
  | .stackOverflow => 2#3
  | .stackUnderflow => 3#3
  | .memoryOutOfRange => 4#3
  | .spriteOutOfRange => 5#3
  | .keyIndexOutOfRange => 6#3

/-- The `fault_out` port: the cause code, 0 for `None`. -/
def faultOut (s : State) : BitVec 3 :=
  match s.fault with
  | none => 0#3
  | some k => k.code

end Sys2Proof.Machine
end

