-- ==== Sys2Proof/Safety.lean ====
section
/-! DEFINITION. The terms claims are stated in: the two end states of a run (70_reset_and_hazards.md R144), the
invariant of the machine, and what an instruction leaves unchanged. -/

namespace Sys2Proof.Machine

/-- End state (b), *faulted*: FAULT != None (70_reset_and_hazards.md R144). -/
def Faulted (s : State) : Prop := s.fault ≠ none

/-- End state (a), *idle*: FAULT = None and the word at PC is `1nnn` with nnn = PC (R144). That the word at PC can
be fetched is DEDUCED: R144 says further cycles change only the timers (log entry 12). -/
def Idle (s : State) : Prop :=
  s.fault = none ∧ s.fetchable = true ∧ ∃ nnn : BitVec 12, decode s.fetchWord = .assigned (.jp nnn) ∧
    nnn.toNat = s.pc.toNat

/-- What every step keeps: memory in its canonical form; SP in 0..16 (10_state.md R25); every stack slot at most
0x1000, since CALL pushes an advanced PC (41_control_flow.md R81); PC at most 0x10FE, the largest target of
`JP V0` (R88). -/
def State.Inv (s : State) : Prop :=
  Memory.wf s.font s.mem = true ∧ s.sp.toNat ≤ 16 ∧ (∀ j a, s.slot j = some a → a.toNat ≤ 0x1000) ∧
    s.pc.toNat ≤ 0x10FE

/-- The parts of the state, beside PC and the general registers, that an instruction may write. -/
inductive Part where
  | index | memory | stack | delay | sound | screen
  deriving DecidableEq, Repr

/-- The frame rule (00_scope.md R14): from `s` to `t` nothing changed but PC, the registers in `regs` and the parts
in `parts`. `t` has raised no fault that `s` had not. -/
def ChangesOnly (regs : Set Reg) (parts : Set Part) (s t : State) : Prop :=
  (∀ r, r ∉ regs → t.reg r = s.reg r) ∧
  (Part.index ∉ parts → t.i = s.i) ∧
  (Part.memory ∉ parts → ∀ a, t.peek a = s.peek a) ∧
  (Part.stack ∉ parts → t.sp = s.sp ∧ ∀ j, t.slot j = s.slot j) ∧
  (Part.delay ∉ parts → t.dt = s.dt) ∧
  (Part.sound ∉ parts → t.st = s.st) ∧
  (Part.screen ∉ parts → ∀ x y, t.cell x y = s.cell x y) ∧
  t.fault = s.fault ∧ t.font = s.font ∧ t.inputs = s.inputs ∧ t.cycle = s.cycle

end Sys2Proof.Machine
end

