-- ==== Sys2Proof/Certificates/Slice0/Obligations.lean ====
section
/-! DEFINITION. The statements about the machine. Where one follows a numbered rule of spec/, its docstring names the
rule. A statement about an instruction says: which words decode to it, that `exec` answers a next state and what that
state holds, and that nothing else changed (`ChangesOnly`). `exec` gets the state at the start of the cycle, PC at the
instruction, so `PC + 2` is the advanced PC of 40_cycle_driver.md R75; the timer decrement is the step's. -/

open Sys2Proof Sys2Proof.Machine

namespace Sys2Proof.Claims

/-- Every word with these mask and pattern decodes to the instruction `f` reads from it (30_encoding.md R65). -/
def RowDecodes (mask pattern : BitVec 16) (f : BitVec 16 → Instr) : Prop :=
  ∀ w, w &&& mask = pattern → decode w = .assigned (f w)

/-- Bits 11:8, 7:4, 3:0, 7:0 and 11:0 of a word (R55). -/
def xOf (w : BitVec 16) : BitVec 4 := w.extractLsb' 8 4
def yOf (w : BitVec 16) : BitVec 4 := w.extractLsb' 4 4
def nOf (w : BitVec 16) : BitVec 4 := w.extractLsb' 0 4
def kkOf (w : BitVec 16) : BitVec 8 := w.extractLsb' 0 8
def nnnOf (w : BitVec 16) : BitVec 12 := w.extractLsb' 0 12

/-- The word at PC, high byte first (40_cycle_driver.md R74). -/
def wordAt (s : State) : BitVec 16 := s.peek s.pc.toNat ++ s.peek (s.pc.toNat + 1)

/-- The fetch region (20_memory.md R42). -/
def MayFetch (s : State) : Prop := 0x200 ≤ s.pc.toNat ∧ s.pc.toNat + 1 ≤ 0xFFF

/-- The instruction `i` runs and nothing but PC, the registers in `regs` and the parts in `parts` changes; `P` says
what the next state holds. -/
def Runs (i : Instr) (s : State) (regs : Set Reg) (parts : Set Part) (P : State → Prop) : Prop :=
  ∃ t, exec i s = .next t ∧ P t ∧ ChangesOnly regs parts s t

/-- The instruction `i` raises `k`: the state at the start of the cycle with FAULT set, and nothing else changed
(40_cycle_driver.md R79). -/
def Raises (i : Instr) (s : State) (k : FaultKind) : Prop := exec i s = .next { s with fault := some k }

/-- A set bit of the n-row sprite of DRW lies at column X and row Y, unwrapped: row r, column c of the sprite at the
origin (V[x] mod 64, V[y] mod 32) (44_display.md R109). -/
def Covers (s : State) (x y : Reg) (n X Y : Nat) : Prop :=
  ∃ r c, r < n ∧ c < 8 ∧ (s.peek (s.i.toNat + r)).getLsbD (7 - c) = true ∧
    X = (s.reg x).toNat % 64 + c ∧ Y = (s.reg y).toNat % 32 + r

/-- DRW meets no fault condition (R109). -/
def DrawFits (s : State) (x y : Reg) (n : Nat) : Prop :=
  (n = 0 ∨ s.i.toNat + n ≤ 0x1000) ∧ ∀ X Y, Covers s x y n X Y → X ≤ 63 ∧ Y ≤ 31

/-- The instructions that write VF as a flag (10_state.md R21). -/
def writesFlag : Instr → Bool
  | .addReg _ _ | .sub _ _ | .shr _ | .subn _ _ | .shl _ | .drw _ _ _ => true
  | _ => false

/-- The instructions that write VF only when it is their destination x = 0xF (R21). -/
def namesVf : Instr → Bool
  | .ldImm x _ | .addImm x _ | .ldReg x _ | .orReg x _ | .andReg x _ | .xorReg x _ | .rnd x _ | .ldVxDt x
  | .ldVxK x | .ldRegs x => x = 0xF#4
  | _ => false

/-- The instructions whose handler reads KEYS (40_cycle_driver.md R76). -/
def readsKeys : Instr → Bool
  | .skp _ | .sknp _ | .ldVxK _ => true
  | _ => false

/-- The instruction whose handler reads RND (R76). -/
def readsRnd : Instr → Bool
  | .rnd _ _ => true
  | _ => false

/-- The same outcome with `f` applied to a next state. -/
def mapNext (f : State → State) : Host.Outcome State Fault Refusal → Host.Outcome State Fault Refusal
  | .next t => .next (f t)
  | .fault r => .fault r
  | .refused r => .refused r

/-- Equal but for stack slots at index >= SP, which no instruction reads (10_state.md R37). -/
def SameButStaleSlots (s t : State) : Prop :=
  t = { s with stack := t.stack } ∧ ∀ j, j < s.sp.toNat → t.slot j = s.slot j

/-- Every component of `t` has its reset value of 10_state.md R36, the font region that of `font`. -/
def HoldsResetValues (font : Vector (BitVec 8) 80) (t : State) : Prop :=
  (∀ a, a ≤ 0x04F → t.peek a = 0#8) ∧
  (∀ k, (h : k < 80) → t.peek (0x050 + k) = font[k]) ∧
  (∀ a, 0x0A0 ≤ a → a ≤ 0xFFF → t.peek a = 0#8) ∧
  (∀ x, t.reg x = 0#8) ∧ t.i = 0#16 ∧ t.pc = 0x200#16 ∧ (∀ j, j < 16 → t.slot j = some 0#16) ∧ t.sp = 0#8 ∧
  t.dt = 0#8 ∧ t.st = 0#8 ∧ (∀ x y, t.cell x y = false) ∧ t.fault = none

/-- The state without the model's own input queue and cycle number. -/
def coreOf (s : State) : State := { s with inputs := [], cycle := 0 }

/-- The fault the decoded instruction raises by its own check (60_exceptions.md R120 to R124), DRW's memory check
before its sprite check (R125). -/
inductive OwnFault (s : State) : Instr → FaultKind → Prop
  | call (nnn) : 16 ≤ s.sp.toNat → OwnFault s (.call nnn) .stackOverflow
  | ret : s.sp.toNat = 0 → OwnFault s .ret .stackUnderflow
  | bcd (x) : 0xFFF < s.i.toNat + 2 → OwnFault s (.ldB x) .memoryOutOfRange
  | store (x) : 0xFFF < s.i.toNat + x.toNat → OwnFault s (.stRegs x) .memoryOutOfRange
  | load (x) : 0xFFF < s.i.toNat + x.toNat → OwnFault s (.ldRegs x) .memoryOutOfRange
  | drawMemory (x y n) : 0 < n → 0x1000 < s.i.toNat + n → OwnFault s (.drw x y n) .memoryOutOfRange
  | drawScreen (x y n X Y) : (n = 0 ∨ s.i.toNat + n ≤ 0x1000) → Covers s x y n X Y → (63 < X ∨ 31 < Y) →
      OwnFault s (.drw x y n) .spriteOutOfRange
  | skp (x) : 15 < (s.reg x).toNat → OwnFault s (.skp x) .keyIndexOutOfRange
  | sknp (x) : 15 < (s.reg x).toNat → OwnFault s (.sknp x) .keyIndexOutOfRange

end Sys2Proof.Claims

open Sys2Proof.Claims

/-! ## Encoding -/

/-- Words written out from the spellings of 30_encoding.md R65 and the examples of the spec, one or more a family. -/
def Obligations.SpecWordsDecodeAsSpelled : Prop :=
  decode 0x00E0#16 = .assigned .cls ∧ decode 0x0000#16 = .assigned .cls ∧ decode 0x012E#16 = .assigned .ret ∧
  decode 0x1234#16 = .assigned (.jp 0x234#12) ∧ decode 0x3A42#16 = .assigned (.seImm 0xA#4 0x42#8) ∧
  decode 0x5121#16 = .assigned (.seReg 1#4 2#4) ∧ decode 0x8F14#16 = .assigned (.addReg 0xF#4 1#4) ∧
  decode 0x8156#16 = .assigned (.shr 1#4) ∧ decode 0x8008#16 = .noOp ∧ decode 0xB300#16 = .assigned (.jpV0 0x300#12) ∧
  decode 0xC20F#16 = .assigned (.rnd 2#4 0x0F#8) ∧ decode 0xD012#16 = .assigned (.drw 0#4 1#4 2) ∧
  decode 0xE30E#16 = .assigned (.skp 3#4) ∧ decode 0xE3F1#16 = .assigned (.sknp 3#4) ∧
  decode 0xF265#16 = .assigned (.ldRegs 2#4) ∧ decode 0xF0FF#16 = .noOp

/-- Decoding an encoded well-formed instruction gives it back, with every operand. -/
def Obligations.DecodeOfEncodeIsTheInstruction : Prop :=
  ∀ i : Instr, i.wf = true → decode (encode i) = .assigned i

/-- 30_encoding.md R65: a word decodes to a row exactly when it meets the row's mask and pattern, no two of the 34
rows share a word, and the no-op is what meets none. -/
def Obligations.EveryWordDecodesByTheOpcodeMap : Prop :=
  opcodeRows.length = 34 ∧
  (∀ w : BitVec 16, ∀ r ∈ opcodeRows,
    (w &&& r.mask = r.pattern ↔ ∃ i, decode w = .assigned i ∧ i.spelling = r.spelling)) ∧
  (∀ w : BitVec 16, ∀ r ∈ opcodeRows, ∀ r' ∈ opcodeRows,
    w &&& r.mask = r.pattern → w &&& r'.mask = r'.pattern → r = r') ∧
  (∀ w : BitVec 16, decode w = .noOp ↔ ∀ r ∈ opcodeRows, w &&& r.mask ≠ r.pattern)

/-- 30_encoding.md R66 (derived there from R56 and R59 to R63): changing ignored bits changes nothing, and every other
bit of a decoded word is in the instruction: encoding it gives the word back but for ignored bits. -/
def Obligations.OnlyIgnoredBitsAreDropped : Prop :=
  (∀ i : Instr, i.wf = true → ∀ m : BitVec 16, decode (encode i ^^^ (m &&& i.ignoredBits)) = .assigned i) ∧
  (∀ (w : BitVec 16) (i : Instr), decode w = .assigned i →
    i.wf = true ∧ encode i &&& ~~~i.ignoredBits = w &&& ~~~i.ignoredBits) ∧
  (∀ i : Instr, i.ignoredBits = match i with
    | .cls | .ret => 0x0FF0#16
    | .seReg _ _ | .sneReg _ _ => 0x000F#16
    | .shr _ | .shl _ | .skp _ | .sknp _ => 0x00F0#16
    | _ => 0#16)

/-! ## The cycle -/

/-- 40_cycle_driver.md R72, R74, R76, R77: a running core at a fetchable PC executes the instruction its word decodes
to; a cycle that ends with no fault ticks both timers. That it has then used up its queued input and counts in the cycle
number is the model's own (log entries 3, 6 and 16). -/
def Obligations.StepRunsTheDecodedInstruction : Prop :=
  (∀ (s : State) (i : Instr), s.fault = none → MayFetch s → decode (wordAt s) = .assigned i →
    step s = mapNext State.endCycle (exec i s)) ∧
  (∀ t : State, t.fault = none → t.endCycle =
    { t with
      dt := if t.dt = 0#8 then t.dt else t.dt - 1#8
      st := if t.st = 0#8 then t.st else t.st - 1#8
      inputs := t.inputs.tail
      cycle := t.cycle + 1 }) ∧
  (∀ t : State, t.fault ≠ none → t.endCycle = t)

/-- 30_encoding.md R64: exactly these words are unassigned, and a cycle on one only advances PC and ticks the
timers. That the cycle has also used up its queued input and counts in the cycle number is the model's own (log entries
3, 6 and 16). -/
def Obligations.UnassignedWordOnlyAdvances : Prop :=
  (∀ w : BitVec 16, decode w = .noOp ↔
    (w.extractLsb' 12 4 = 0x0#4 ∧ nOf w ∉ [0x0#4, 0xE#4]) ∨
    (w.extractLsb' 12 4 = 0x8#4 ∧ nOf w ∈ [0x8#4, 0x9#4, 0xA#4, 0xB#4, 0xC#4, 0xD#4, 0xF#4]) ∨
    (w.extractLsb' 12 4 = 0xE#4 ∧ nOf w ∉ [0xE#4, 0x1#4]) ∨
    (w.extractLsb' 12 4 = 0xF#4 ∧
      kkOf w ∉ [0x07#8, 0x0A#8, 0x15#8, 0x18#8, 0x1E#8, 0x29#8, 0x33#8, 0x55#8, 0x65#8])) ∧
  (∀ s : State, s.fault = none → MayFetch s → decode (wordAt s) = .noOp →
    ∃ t, step s = .next t ∧ t.pc = s.pc + 2#16 ∧ t.dt.toNat = s.dt.toNat - 1 ∧ t.st.toNat = s.st.toNat - 1 ∧
      t.inputs = s.inputs.tail ∧ t.cycle = s.cycle + 1 ∧
      t = { s with pc := t.pc, dt := t.dt, st := t.st, inputs := t.inputs, cycle := t.cycle })

/-- 60_exceptions.md R119: fetching outside 0x200..0xFFF raises FetchOutOfRange, code 1, with PC at the offending
address. The fault is the spec's own decision (D6). -/
def Obligations.FetchOutsideProgramRegionFaults : Prop :=
  ∀ s : State, s.fault = none → (s.pc.toNat < 0x200 ∨ 0xFFF < s.pc.toNat + 1) →
    ∃ t, step s = .next t ∧ t = { s with fault := some .fetchOutOfRange } ∧ t.pc = s.pc ∧ faultOut t = 1#3

/-- 60_exceptions.md R126: a faulted core changes no state in a cycle, and FAULT is cleared by reset only
(the spec's own decision D18). -/
def Obligations.FaultedCoreIsStopped : Prop :=
  ∀ s : State, s.fault ≠ none →
    step s = .next s ∧
    (∀ keys rnd, cycle keys rnd s = .next s) ∧
    (∀ bytes t, load bytes s = .ok t → t.fault = s.fault) ∧
    (resetPort s).fault = none

/-- 40_cycle_driver.md R79: a cycle that raises a fault leaves the state at the start of the cycle with only FAULT
set (the spec's own decision D1). -/
def Obligations.FaultingCycleCommitsNothing : Prop :=
  ∀ s t : State, s.fault = none → step s = .next t → t.fault ≠ none → ∃ k, t = { s with fault := some k }

/-- 60_exceptions.md R125: the fault a cycle raises, in priority order: FetchOutOfRange when PC is outside the fetch
region, else the decoded instruction's own check and no other (the spec's own decision D17). -/
def Obligations.FaultRaisedExactlyByPriority : Prop :=
  ∀ (s t : State) (k : FaultKind), s.fault = none → step s = .next t →
    (t.fault = some k ↔
      (¬ MayFetch s ∧ k = .fetchOutOfRange) ∨
      (MayFetch s ∧ ∃ i, decode (wordAt s) = .assigned i ∧ OwnFault s i k))

/-- 40_cycle_driver.md R77: every cycle that does not fault decrements both timers by one, never below 0, after the
handler: a timer written in the cycle is decremented from the value written (the spec's own decision D26). -/
def Obligations.TimersTickInEveryFaultFreeCycle : Prop :=
  ∀ s t : State, s.fault = none → step s = .next t → t.fault = none →
    (∀ x, decode (wordAt s) = .assigned (.ldDtVx x) → t.dt.toNat = (s.reg x).toNat - 1) ∧
    ((∀ x, decode (wordAt s) ≠ .assigned (.ldDtVx x)) → t.dt.toNat = s.dt.toNat - 1) ∧
    (∀ x, decode (wordAt s) = .assigned (.ldStVx x) → t.st.toNat = (s.reg x).toNat - 1) ∧
    ((∀ x, decode (wordAt s) ≠ .assigned (.ldStVx x)) → t.st.toNat = s.st.toNat - 1)

/-- A step never stops the model while SP is in 0..16 (10_state.md R25; 30_encoding.md R67: no word is illegal). -/
def Obligations.StepAlwaysAnswersWithLegalStackPointer : Prop :=
  ∀ s : State, s.sp.toNat ≤ 16 → ∃ t, step s = .next t

/-- The model's choice (log entry 2): RET with SP > 16, which no run reaches, stops. -/
def Obligations.RetAboveSixteenStops : Prop :=
  ∀ s : State, 16 < s.sp.toNat → exec .ret s = .fault .stackSlotAbsent

/-! ## Invariants and whole-machine rules -/

/-- Every step keeps the invariant: memory in canonical form, SP in 0..16, stack slots at most 0x1000, PC at most
0x10FE. -/
def Obligations.StepKeepsInvariant : Prop :=
  ∀ s t : State, s.Inv → step s = .next t → t.Inv

/-- The invariant holds after reset, and the load and reset ports keep it. -/
def Obligations.ResetAndPortsMeetInvariant : Prop :=
  State.reset.Inv ∧ (∀ s : State, (resetPort s).Inv) ∧
  (∀ (s t : State) (bytes : List Byte), s.Inv → load bytes s = .ok t → t.Inv)

/-- 10_state.md R36: every component after reset. FB and FAULT are the spec's own decisions (D13, D1). -/
def Obligations.ResetHoldsTheStatedValues : Prop := HoldsResetValues Config.font State.reset

/-- 20_memory.md R44: a step changes a byte only in Fx33 at I..I+2 or Fx55 at I..I+x. -/
def Obligations.OnlyStoresChangeMemory : Prop :=
  ∀ (s t : State) (a : Nat), Memory.wf s.font s.mem = true → step s = .next t → t.peek a ≠ s.peek a →
    s.fault = none ∧ MayFetch s ∧ s.i.toNat ≤ a ∧ ∃ x,
      (decode (wordAt s) = .assigned (.ldB x) ∧ a ≤ s.i.toNat + 2) ∨
      (decode (wordAt s) = .assigned (.stRegs x) ∧ a ≤ s.i.toNat + x.toNat)

/-- 10_state.md R22, R24, R29: who writes I, the framebuffer and a stack slot. -/
def Obligations.WritersOfIndexScreenAndStack : Prop :=
  ∀ s t : State, step s = .next t →
    (t.i ≠ s.i → ∃ i, decode (wordAt s) = .assigned i ∧ i.spelling ∈ ["Annn", "Fx1E", "Fx29"]) ∧
    (t.fb ≠ s.fb → ∃ i, decode (wordAt s) = .assigned i ∧ i.spelling ∈ ["00E0", "Dxyn"]) ∧
    (∀ j, t.slot j ≠ s.slot j → j = s.sp.toNat ∧ ∃ nnn, decode (wordAt s) = .assigned (.call nnn)) ∧
    (t.sp ≠ s.sp → decode (wordAt s) = .assigned .ret ∨ ∃ nnn, decode (wordAt s) = .assigned (.call nnn))

/-- 10_state.md R21: VF changes only in the flag writers, which leave 0 or 1 in it, and in an instruction that names
it as its destination. -/
def Obligations.FlagIsWrittenOnlyWhereNamed : Prop :=
  ∀ (i : Instr) (s t : State), exec i s = .next t →
    (t.reg 0xF#4 ≠ s.reg 0xF#4 → writesFlag i = true ∨ namesVf i = true) ∧
    (writesFlag i = true → t.fault = none → t.reg 0xF#4 = 0#8 ∨ t.reg 0xF#4 = 1#8)

/-- 40_cycle_driver.md R76: a handler reads KEYS only in Ex9E, ExA1 and Fx0A, and RND only in Cxkk: with other keys, or
another random byte, every other instruction does the same. -/
def Obligations.InputsAreReadOnlyWhereNamed : Prop :=
  ∀ (i : Instr) (s : State) (inp inp' : CycleInput) (rest : List CycleInput),
    (readsKeys i = false ∨ inp'.keys = inp.keys) → (readsRnd i = false ∨ inp'.rnd = inp.rnd) →
    exec i { s with inputs := inp' :: rest } =
      mapNext (fun t => { t with inputs := inp' :: rest }) (exec i { s with inputs := inp :: rest })

/-- 10_state.md R37: stack slots at index >= SP cannot be observed: two states that differ only there step alike, and
still differ only there. -/
def Obligations.StaleStackSlotsAreUnobservable : Prop :=
  ∀ s t s' : State, SameButStaleSlots s t → s.sp.toNat ≤ 16 → step s = .next s' →
    ∃ t', step t = .next t' ∧ SameButStaleSlots s' t'

/-- 10_state.md R27: no instruction reads ST: with another ST, every instruction does the same to everything else. -/
def Obligations.SoundTimerIsNotReadByInstructions : Prop :=
  (∀ (i : Instr) (s : State) (b : BitVec 8), (∀ x, i ≠ .ldStVx x) →
    exec i { s with st := b } = mapNext (fun t => { t with st := b }) (exec i s)) ∧
  (∀ (x : Reg) (s : State) (b : BitVec 8), exec (.ldStVx x) { s with st := b } = exec (.ldStVx x) s)

/-! ## Control transfer (41_control_flow.md) -/

/-- R81: RET decrements SP and then takes PC from STACK[SP], the slot keeping its value; with SP = 0 it raises
StackUnderflow (the spec's own decision D3). -/
def Obligations.RetPopsReturnAddress : Prop :=
  RowDecodes 0xF00F#16 0x000E#16 (fun _ => .ret) ∧
  ∀ s : State,
    (s.sp.toNat = 0 → Raises .ret s .stackUnderflow) ∧
    (0 < s.sp.toNat → s.sp.toNat ≤ 16 → Runs .ret s ∅ {.stack} fun t =>
      t.sp.toNat = s.sp.toNat - 1 ∧ s.slot (s.sp.toNat - 1) = some t.pc ∧ ∀ j, t.slot j = s.slot j)

/-- R82, R88: JP goes to nnn and JP V0 to V0 + nnn, both as exact integers, and nothing else changes.
That the sum is not masked is the spec's own decision (D9). -/
def Obligations.JumpsGoToAbsoluteTargets : Prop :=
  RowDecodes 0xF000#16 0x1000#16 (fun w => .jp (nnnOf w)) ∧
  RowDecodes 0xF000#16 0xB000#16 (fun w => .jpV0 (nnnOf w)) ∧
  ∀ (s : State) (nnn : BitVec 12),
    (Runs (.jp nnn) s ∅ ∅ fun t => t.pc.toNat = nnn.toNat) ∧
    (Runs (.jpV0 nnn) s ∅ ∅ fun t => t.pc.toNat = (s.reg 0#4).toNat + nnn.toNat)

/-- R83: CALL stores the address of the next word at STACK[SP], increments SP and goes to nnn; with SP = 16 (or above)
it raises StackOverflow (the spec's own decision D2). -/
def Obligations.CallPushesReturnAddress : Prop :=
  RowDecodes 0xF000#16 0x2000#16 (fun w => .call (nnnOf w)) ∧
  ∀ (s : State) (nnn : BitVec 12),
    (16 ≤ s.sp.toNat → Raises (.call nnn) s .stackOverflow) ∧
    (s.sp.toNat < 16 → Runs (.call nnn) s ∅ {.stack} fun t =>
      t.slot s.sp.toNat = some (s.pc + 2#16) ∧ (∀ j, j ≠ s.sp.toNat → t.slot j = s.slot j) ∧
      t.sp.toNat = s.sp.toNat + 1 ∧ t.pc.toNat = nnn.toNat)

/-- R84 to R87: a skip adds 2 to the advanced PC exactly when its comparison holds, and changes nothing else. -/
def Obligations.SkipsAddTwoWhenTheComparisonHolds : Prop :=
  RowDecodes 0xF000#16 0x3000#16 (fun w => .seImm (xOf w) (kkOf w)) ∧
  RowDecodes 0xF000#16 0x4000#16 (fun w => .sneImm (xOf w) (kkOf w)) ∧
  RowDecodes 0xF000#16 0x5000#16 (fun w => .seReg (xOf w) (yOf w)) ∧
  RowDecodes 0xF000#16 0x9000#16 (fun w => .sneReg (xOf w) (yOf w)) ∧
  ∀ (s : State) (x y : Reg) (kk : Byte),
    (Runs (.seImm x kk) s ∅ ∅ fun t => t.pc = if (s.reg x).toNat = kk.toNat then s.pc + 4#16 else s.pc + 2#16) ∧
    (Runs (.sneImm x kk) s ∅ ∅ fun t => t.pc = if (s.reg x).toNat = kk.toNat then s.pc + 2#16 else s.pc + 4#16) ∧
    (Runs (.seReg x y) s ∅ ∅ fun t =>
      t.pc = if (s.reg x).toNat = (s.reg y).toNat then s.pc + 4#16 else s.pc + 2#16) ∧
    (Runs (.sneReg x y) s ∅ ∅ fun t =>
      t.pc = if (s.reg x).toNat = (s.reg y).toNat then s.pc + 2#16 else s.pc + 4#16)

/-- The round trip of CALL and RET: back at the word after the CALL with SP as before (95_test_vectors.md W6). -/
def Obligations.CallThenReturnComesBack : Prop :=
  ∀ (s : State) (nnn : BitVec 12), s.sp.toNat < 16 →
    ∃ t u, exec (.call nnn) s = .next t ∧ exec .ret t = .next u ∧ u.pc = s.pc + 2#16 ∧ u.sp = s.sp ∧
      ChangesOnly ∅ {.stack} s u

/-! ## Register loads, ALU and random byte (42_alu.md) -/

/-- R90, R92 to R95: the value goes to V[x], bit by bit as named, PC advances, and VF and all else stay (the
spec's frame decision D10). -/
def Obligations.LoadsAndLogicWriteOnlyTheDestination : Prop :=
  RowDecodes 0xF000#16 0x6000#16 (fun w => .ldImm (xOf w) (kkOf w)) ∧
  RowDecodes 0xF00F#16 0x8000#16 (fun w => .ldReg (xOf w) (yOf w)) ∧
  RowDecodes 0xF00F#16 0x8001#16 (fun w => .orReg (xOf w) (yOf w)) ∧
  RowDecodes 0xF00F#16 0x8002#16 (fun w => .andReg (xOf w) (yOf w)) ∧
  RowDecodes 0xF00F#16 0x8003#16 (fun w => .xorReg (xOf w) (yOf w)) ∧
  ∀ (s : State) (x y : Reg) (kk : Byte),
    (Runs (.ldImm x kk) s {x} ∅ fun t => t.pc = s.pc + 2#16 ∧ t.reg x = kk) ∧
    (Runs (.ldReg x y) s {x} ∅ fun t => t.pc = s.pc + 2#16 ∧ t.reg x = s.reg y) ∧
    (Runs (.orReg x y) s {x} ∅ fun t => t.pc = s.pc + 2#16 ∧
      ∀ b, (t.reg x).getLsbD b = ((s.reg x).getLsbD b || (s.reg y).getLsbD b)) ∧
    (Runs (.andReg x y) s {x} ∅ fun t => t.pc = s.pc + 2#16 ∧
      ∀ b, (t.reg x).getLsbD b = ((s.reg x).getLsbD b && (s.reg y).getLsbD b)) ∧
    (Runs (.xorReg x y) s {x} ∅ fun t => t.pc = s.pc + 2#16 ∧
      ∀ b, (t.reg x).getLsbD b = ((s.reg x).getLsbD b != (s.reg y).getLsbD b))

/-- R91: 7xkk wraps modulo 256 and sets no flag (the spec's frame decision D10). -/
def Obligations.AddImmediateWrapsWithoutFlag : Prop :=
  RowDecodes 0xF000#16 0x7000#16 (fun w => .addImm (xOf w) (kkOf w)) ∧
  ∀ (s : State) (x : Reg) (kk : Byte), Runs (.addImm x kk) s {x} ∅ fun t =>
    t.pc = s.pc + 2#16 ∧ (t.reg x).toNat = ((s.reg x).toNat + kk.toNat) % 256

/-- R96: 8xy4 leaves the sum modulo 256 in V[x] and the carry of the exact sum in VF, the flag last. -/
def Obligations.AddSetsCarryLast : Prop :=
  RowDecodes 0xF00F#16 0x8004#16 (fun w => .addReg (xOf w) (yOf w)) ∧
  ∀ (s : State) (x y : Reg), Runs (.addReg x y) s {x, 0xF#4} ∅ fun t =>
    t.pc = s.pc + 2#16 ∧
    (x ≠ 0xF#4 → (t.reg x).toNat = ((s.reg x).toNat + (s.reg y).toNat) % 256) ∧
    (t.reg 0xF#4).toNat = if (s.reg x).toNat + (s.reg y).toNat > 255 then 1 else 0

/-- R97, R99: 8xy5 leaves V[x] - V[y], and 8xy7 V[y] - V[x], modulo 256 in V[x], and in VF whether the minuend was
strictly greater, the flag last. -/
def Obligations.SubtractionsSetNotBorrowLast : Prop :=
  RowDecodes 0xF00F#16 0x8005#16 (fun w => .sub (xOf w) (yOf w)) ∧
  RowDecodes 0xF00F#16 0x8007#16 (fun w => .subn (xOf w) (yOf w)) ∧
  ∀ (s : State) (x y : Reg),
    (Runs (.sub x y) s {x, 0xF#4} ∅ fun t =>
      t.pc = s.pc + 2#16 ∧
      (x ≠ 0xF#4 → ((t.reg x).toNat : Int) = ((s.reg x).toNat - (s.reg y).toNat : Int) % 256) ∧
      (t.reg 0xF#4).toNat = if (s.reg x).toNat > (s.reg y).toNat then 1 else 0) ∧
    (Runs (.subn x y) s {x, 0xF#4} ∅ fun t =>
      t.pc = s.pc + 2#16 ∧
      (x ≠ 0xF#4 → ((t.reg x).toNat : Int) = ((s.reg y).toNat - (s.reg x).toNat : Int) % 256) ∧
      (t.reg 0xF#4).toNat = if (s.reg y).toNat > (s.reg x).toNat then 1 else 0)

/-- R98, R100: 8xy6 halves V[x] and puts its old bit 0 in VF; 8xyE doubles V[x] modulo 256 and puts its old bit 7 in
VF; the flag last. -/
def Obligations.ShiftsSetShiftedOutBitLast : Prop :=
  RowDecodes 0xF00F#16 0x8006#16 (fun w => .shr (xOf w)) ∧
  RowDecodes 0xF00F#16 0x800E#16 (fun w => .shl (xOf w)) ∧
  ∀ (s : State) (x : Reg),
    (Runs (.shr x) s {x, 0xF#4} ∅ fun t =>
      t.pc = s.pc + 2#16 ∧ (x ≠ 0xF#4 → (t.reg x).toNat = (s.reg x).toNat / 2) ∧
      (t.reg 0xF#4).toNat = (s.reg x).toNat % 2) ∧
    (Runs (.shl x) s {x, 0xF#4} ∅ fun t =>
      t.pc = s.pc + 2#16 ∧ (x ≠ 0xF#4 → (t.reg x).toNat = (s.reg x).toNat * 2 % 256) ∧
      (t.reg 0xF#4).toNat = (s.reg x).toNat / 128)

/-- R101: Cxkk leaves RND AND kk in V[x], whatever the byte RND is. -/
def Obligations.RandomByteIsMasked : Prop :=
  RowDecodes 0xF000#16 0xC000#16 (fun w => .rnd (xOf w) (kkOf w)) ∧
  ∀ (s : State) (x : Reg) (kk : Byte), Runs (.rnd x kk) s {x} ∅ fun t =>
    t.pc = s.pc + 2#16 ∧ (∀ b, (t.reg x).getLsbD b = (s.input.rnd.getLsbD b && kk.getLsbD b)) ∧
    (∀ b, kk.getLsbD b = false → (t.reg x).getLsbD b = false)

/-! ## Index register and memory transfer (43_index_memory.md) -/

/-- R102, R103, R104: I takes nnn, the sum modulo 2^16 (the spec's own decision D8), or 0x050 + 5 * V[x] with V[x]
whole. -/
def Obligations.IndexTakesAddressSumOrGlyph : Prop :=
  RowDecodes 0xF000#16 0xA000#16 (fun w => .ldI (nnnOf w)) ∧
  RowDecodes 0xF0FF#16 0xF01E#16 (fun w => .addI (xOf w)) ∧
  RowDecodes 0xF0FF#16 0xF029#16 (fun w => .ldF (xOf w)) ∧
  ∀ (s : State) (x : Reg) (nnn : BitVec 12),
    (Runs (.ldI nnn) s ∅ {.index} fun t => t.pc = s.pc + 2#16 ∧ t.i.toNat = nnn.toNat) ∧
    (Runs (.addI x) s ∅ {.index} fun t =>
      t.pc = s.pc + 2#16 ∧ t.i.toNat = (s.i.toNat + (s.reg x).toNat) % 65536) ∧
    (Runs (.ldF x) s ∅ {.index} fun t => t.pc = s.pc + 2#16 ∧ t.i.toNat = 0x050 + 5 * (s.reg x).toNat)

/-- R105: Fx33 stores the three decimal digits of V[x] at I, I+1, I+2, hundreds first, and no other byte; with
I + 2 > 0xFFF it raises MemoryOutOfRange and writes nothing (the spec's own decision D4). -/
def Obligations.BcdStoresThreeDigits : Prop :=
  RowDecodes 0xF0FF#16 0xF033#16 (fun w => .ldB (xOf w)) ∧
  ∀ (s : State) (x : Reg), Memory.wf s.font s.mem = true →
    (0xFFF < s.i.toNat + 2 → Raises (.ldB x) s .memoryOutOfRange) ∧
    (s.i.toNat + 2 ≤ 0xFFF → Runs (.ldB x) s ∅ {.memory} fun t =>
      t.pc = s.pc + 2#16 ∧
      (t.peek s.i.toNat).toNat = (s.reg x).toNat / 100 ∧
      (t.peek (s.i.toNat + 1)).toNat = (s.reg x).toNat / 10 % 10 ∧
      (t.peek (s.i.toNat + 2)).toNat = (s.reg x).toNat % 10 ∧
      ∀ a, (a < s.i.toNat ∨ s.i.toNat + 2 < a) → t.peek a = s.peek a)

/-- R106: Fx55 stores V0..Vx at I..I+x and no other byte, I unchanged (D10); with I + x > 0xFFF it raises
MemoryOutOfRange and writes nothing (the spec's own decision D4). -/
def Obligations.StoreWritesRegistersUpToX : Prop :=
  RowDecodes 0xF0FF#16 0xF055#16 (fun w => .stRegs (xOf w)) ∧
  ∀ (s : State) (x : Reg), Memory.wf s.font s.mem = true →
    (0xFFF < s.i.toNat + x.toNat → Raises (.stRegs x) s .memoryOutOfRange) ∧
    (s.i.toNat + x.toNat ≤ 0xFFF → Runs (.stRegs x) s ∅ {.memory} fun t =>
      t.pc = s.pc + 2#16 ∧
      (∀ r : Reg, r.toNat ≤ x.toNat → t.peek (s.i.toNat + r.toNat) = s.reg r) ∧
      ∀ a, (a < s.i.toNat ∨ s.i.toNat + x.toNat < a) → t.peek a = s.peek a)

/-- R107: Fx65 loads V0..Vx from I..I+x and no other register, I unchanged (D10); with I + x > 0xFFF it
raises MemoryOutOfRange and writes nothing (the spec's own decision D4). -/
def Obligations.LoadReadsRegistersUpToX : Prop :=
  RowDecodes 0xF0FF#16 0xF065#16 (fun w => .ldRegs (xOf w)) ∧
  ∀ (s : State) (x : Reg),
    (0xFFF < s.i.toNat + x.toNat → Raises (.ldRegs x) s .memoryOutOfRange) ∧
    (s.i.toNat + x.toNat ≤ 0xFFF → Runs (.ldRegs x) s {r | r.toNat ≤ x.toNat} ∅ fun t =>
      t.pc = s.pc + 2#16 ∧ ∀ r : Reg, r.toNat ≤ x.toNat → t.reg r = s.peek (s.i.toNat + r.toNat))

/-- R148, for Fx55 and the word after it (derived there from R53): a word that Fx55 stores right after itself is what
the next cycle fetches. -/
def Obligations.StoredWordIsFetchedNext : Prop :=
  ∀ (s : State) (x : Reg), Memory.wf s.font s.mem = true → s.fault = none → MayFetch s →
    decode (wordAt s) = .assigned (.stRegs x) →
    1 ≤ x.toNat → s.i.toNat = s.pc.toNat + 2 → s.i.toNat + x.toNat ≤ 0xFFF →
    ∃ t, step s = .next t ∧ wordAt t = s.reg 0#4 ++ s.reg 1#4

/-! ## Framebuffer (44_display.md) -/

/-- R108: CLS leaves every cell clear and changes nothing else, VF included. -/
def Obligations.ClearScreenClearsEveryCell : Prop :=
  RowDecodes 0xF00F#16 0x0000#16 (fun _ => .cls) ∧
  ∀ s : State, Runs .cls s ∅ {.screen} fun t => t.pc = s.pc + 2#16 ∧ ∀ x y, t.cell x y = false

/-- R109: DRW flips exactly the cells its set bits cover and sets VF to whether one of them was set; a sprite byte
past 0xFFF raises MemoryOutOfRange, and else a set bit past the edge raises SpriteOutOfRange (the spec's own decisions
D4, D5, D12). -/
def Obligations.DrawTogglesCoveredCells : Prop :=
  RowDecodes 0xF000#16 0xD000#16 (fun w => .drw (xOf w) (yOf w) (nOf w).toNat) ∧
  ∀ (s : State) (x y : Reg) (n : Nat),
    (0 < n → 0x1000 < s.i.toNat + n → Raises (.drw x y n) s .memoryOutOfRange) ∧
    ((n = 0 ∨ s.i.toNat + n ≤ 0x1000) → (∃ X Y, Covers s x y n X Y ∧ (63 < X ∨ 31 < Y)) →
      Raises (.drw x y n) s .spriteOutOfRange) ∧
    (DrawFits s x y n → Runs (.drw x y n) s {0xF#4} {.screen} fun t =>
      t.pc = s.pc + 2#16 ∧
      (∀ X Y, Covers s x y n X Y → t.cell X Y = !s.cell X Y) ∧
      (∀ X Y, ¬ Covers s x y n X Y → t.cell X Y = s.cell X Y) ∧
      ((∃ X Y, Covers s x y n X Y ∧ s.cell X Y = true) → t.reg 0xF#4 = 1#8) ∧
      ((∀ X Y, Covers s x y n X Y → s.cell X Y = false) → t.reg 0xF#4 = 0#8))

/-- R110 (derived there from R109): the laws of the draw datapath: uncovered cells stay, a second draw at the same
origin restores the screen, its VF says whether a covered cell was clear before the first draw, VF says whether a cell
went from set to clear, and memory is never written. -/
def Obligations.DrawTwiceRestoresTheScreen : Prop :=
  ∀ (s : State) (x y : Reg) (n : Nat), DrawFits s x y n → ∃ t, exec (.drw x y n) s = .next t ∧
    (∀ X Y, ¬ Covers s x y n X Y → t.cell X Y = s.cell X Y) ∧
    (t.reg 0xF#4 = 1#8 ↔ ∃ X Y, s.cell X Y = true ∧ t.cell X Y = false) ∧
    (∀ a, t.peek a = s.peek a) ∧
    (t.reg x = s.reg x → t.reg y = s.reg y → ∃ u, exec (.drw x y n) t = .next u ∧
      (∀ X Y, u.cell X Y = s.cell X Y) ∧ (∀ a, u.peek a = s.peek a) ∧
      (u.reg 0xF#4 = 1#8 ↔ ∃ X Y, Covers s x y n X Y ∧ s.cell X Y = false) ∧
      ((∀ X Y, Covers s x y n X Y → s.cell X Y = false) →
        (u.reg 0xF#4 = 1#8 ↔ ∃ X Y, Covers s x y n X Y)))

/-! ## Keys and timers (45_timers_keys.md) -/

/-- R111, R112: with V[x] at most 15, SKP skips when that key is held and SKNP when it is not; above 15 both raise
KeyIndexOutOfRange (the spec's own decision D7). -/
def Obligations.KeySkipsTestTheNamedKey : Prop :=
  RowDecodes 0xF00F#16 0xE00E#16 (fun w => .skp (xOf w)) ∧
  RowDecodes 0xF00F#16 0xE001#16 (fun w => .sknp (xOf w)) ∧
  ∀ (s : State) (x : Reg),
    (15 < (s.reg x).toNat → Raises (.skp x) s .keyIndexOutOfRange ∧ Raises (.sknp x) s .keyIndexOutOfRange) ∧
    ((h : (s.reg x).toNat ≤ 15) →
      (Runs (.skp x) s ∅ ∅ fun t =>
        t.pc = if s.input.keys[(s.reg x).toNat] = true then s.pc + 4#16 else s.pc + 2#16) ∧
      (Runs (.sknp x) s ∅ ∅ fun t =>
        t.pc = if s.input.keys[(s.reg x).toNat] = true then s.pc + 2#16 else s.pc + 4#16))

/-- R114: Fx0A stores the lowest-numbered held key and goes on; with no key held PC stays at this instruction and
nothing else changes. -/
def Obligations.KeyWaitTakesLowestKeyOrRepeats : Prop :=
  RowDecodes 0xF0FF#16 0xF00A#16 (fun w => .ldVxK (xOf w)) ∧
  ∀ (s : State) (x : Reg),
    ((∀ k, (h : k < 16) → s.input.keys[k] = false) → Runs (.ldVxK x) s ∅ ∅ fun t => t.pc = s.pc) ∧
    (∀ k, (h : k < 16) → s.input.keys[k] = true → (∀ j, (hj : j < k) → s.input.keys[j] = false) →
      Runs (.ldVxK x) s {x} ∅ fun t => t.pc = s.pc + 2#16 ∧ (t.reg x).toNat = k)

/-- R113, R115, R116: Fx07 copies DT as it was before the cycle's decrement, Fx15 and Fx18 set DT and ST; VF and all
else stay. -/
def Obligations.TimerMovesCopyOneByte : Prop :=
  RowDecodes 0xF0FF#16 0xF007#16 (fun w => .ldVxDt (xOf w)) ∧
  RowDecodes 0xF0FF#16 0xF015#16 (fun w => .ldDtVx (xOf w)) ∧
  RowDecodes 0xF0FF#16 0xF018#16 (fun w => .ldStVx (xOf w)) ∧
  ∀ (s : State) (x : Reg),
    (Runs (.ldVxDt x) s {x} ∅ fun t => t.pc = s.pc + 2#16 ∧ t.reg x = s.dt) ∧
    (Runs (.ldDtVx x) s ∅ {.delay} fun t => t.pc = s.pc + 2#16 ∧ t.dt = s.reg x) ∧
    (Runs (.ldStVx x) s ∅ {.sound} fun t => t.pc = s.pc + 2#16 ∧ t.st = s.reg x)

/-- R146, its first point (derived there from R77): Fx15 followed at once by Fx07 reads one less than was written (0
when 0 was). -/
def Obligations.DelayWrittenThenReadIsOneLess : Prop :=
  ∀ (s : State) (x y : Reg), s.fault = none → MayFetch s → s.pc.toNat + 3 ≤ 0xFFF →
    decode (wordAt s) = .assigned (.ldDtVx x) →
    decode (s.peek (s.pc.toNat + 2) ++ s.peek (s.pc.toNat + 3)) = .assigned (.ldVxDt y) →
    ∃ t u, step s = .next t ∧ step t = .next u ∧ (u.reg y).toNat = (s.reg x).toNat - 1

/-! ## The host's ports (70_reset_and_hazards.md, 10_state.md) -/

/-- R139, R140: load copies at most 3584 bytes to 0x200 on and leaves all other state, PC and FAULT included; a longer
input fails and changes nothing (the spec's own decision D30). -/
def Obligations.LoadCopiesTheProgram : Prop :=
  ∀ (s : State) (bytes : List (BitVec 8)), Memory.wf s.font s.mem = true →
    (3584 < bytes.length → load bytes s = .error .tooLong) ∧
    (bytes.length ≤ 3584 → ∃ t, load bytes s = .ok t ∧
      (∀ k, (h : k < bytes.length) → t.peek (0x200 + k) = bytes[k]) ∧
      (∀ a, (a < 0x200 ∨ 0x200 + bytes.length ≤ a) → t.peek a = s.peek a) ∧
      t.pc = s.pc ∧ ChangesOnly ∅ {.memory} s t)

/-- 40_cycle_driver.md R80: a cycle's result depends only on the state and on the KEYS and RND it is given. -/
def Obligations.CycleDependsOnlyOnStateAndInputs : Prop :=
  ∀ (keys : Keys) (rnd : BitVec 8) (s s' t : State), coreOf s' = coreOf s → cycle keys rnd s = .next t →
    ∃ t', cycle keys rnd s' = .next t' ∧ coreOf t' = coreOf t

/-- 10_state.md R29, R34, R35: the framebuffer port is row-major, the sound port is ST, and the fault port shows the
cause codes. -/
def Obligations.ObservationPortsShowTheState : Prop :=
  ∀ s : State, (fbOut s).length = 2048 ∧ (∀ x y, x < 64 → y < 32 → (fbOut s)[y * 64 + x]? = some (s.cell x y)) ∧
    soundOut s = s.st ∧
    (faultOut s).toNat = match s.fault with
      | none => 0
      | some .fetchOutOfRange => 1
      | some .stackOverflow => 2
      | some .stackUnderflow => 3
      | some .memoryOutOfRange => 4
      | some .spriteOutOfRange => 5
      | some .keyIndexOutOfRange => 6

/-- 70_reset_and_hazards.md R144 (a), read with log entry 12 (DEDUCED): a cycle of an idle core leaves everything but
the timers, and the core stays idle. That the word at PC of an idle core can be fetched, both as premise and as
conclusion, is the model's reading and not in R144 (a); that the cycle has used up its queued input and counts in the
cycle number is the model's own (log entries 3, 6 and 16). -/
def Obligations.IdleCycleOnlyTicks : Prop :=
  ∀ s : State, Idle s → ∃ t, step s = .next t ∧ Idle t ∧ t.dt.toNat = s.dt.toNat - 1 ∧
    t.st.toNat = s.st.toNat - 1 ∧
    t = { s with dt := t.dt, st := t.st, inputs := s.inputs.tail, cycle := s.cycle + 1 }

/-- The model's own (log entry 10): a word placed by `withFetchWord` is the one the next step fetches and runs. -/
def Obligations.PlacedWordIsTheNextToRun : Prop :=
  ∀ (s : State) (w : Nat), Memory.wf s.font s.mem = true → w < 65536 →
    (s.withFetchWord 16 w).fault = none ∧ MayFetch (s.withFetchWord 16 w) ∧
    wordAt (s.withFetchWord 16 w) = BitVec.ofNat 16 w ∧
    ∀ i, decodeTableWord 16 w = some i →
      step (s.withFetchWord 16 w) = mapNext State.endCycle (exec i (s.withFetchWord 16 w))

/-- 10_state.md R35, 70_reset_and_hazards.md R137: the reset port, used on any state, leaves every component at its
value of R36, a loaded program gone. FONT is the model's field `font`, which the port keeps (log entries 5 and 8), as
it keeps the host's queued input and the cycle number (log entry 8). -/
def Obligations.ResetPortRestoresEveryComponent : Prop :=
  ∀ s : State, HoldsResetValues s.font (resetPort s) ∧ (resetPort s).font = s.font ∧
    (resetPort s).inputs = s.inputs ∧ (resetPort s).cycle = s.cycle

/-- 10_state.md R32, R33, R35, 40_cycle_driver.md R72: what a cycle reads as KEYS and RND is what the host gave it. That
the host's inputs stand in a queue, next first, and that the cycle port puts one there and the old queue back, is the
model's own (log entries 3 and 4). -/
def Obligations.CycleReadsTheInputItIsGiven : Prop :=
  (∀ (s : State) (keys : Keys) (rnd : BitVec 8) (rest : List CycleInput),
    ({ s with inputs := ⟨keys, rnd⟩ :: rest }).input = ⟨keys, rnd⟩ ∧
    ({ s with inputs := ⟨keys, rnd⟩ :: rest }).rnd = rnd ∧
    ∀ k, (h : k < 16) → ({ s with inputs := ⟨keys, rnd⟩ :: rest }).keyHeld k = keys[k]) ∧
  (∀ (s : State) (keys : Keys) (rnd : BitVec 8),
    cycle keys rnd s = mapNext (fun t => { t with inputs := s.inputs }) (step { s with inputs := [⟨keys, rnd⟩] }))

/-- 10_state.md R32, R33, 40_cycle_driver.md R72: the KEYS and RND given to the cycle port are what Ex9E, ExA1, Fx0A and
Cxkk read. The port leaves the host's own queue as it was (log entry 3). -/
def Obligations.CyclePortFeedsTheReadingInstructions : Prop :=
  ∀ (s : State) (keys : Keys) (rnd : BitVec 8), s.fault = none → MayFetch s →
    (∀ x kk, decode (wordAt s) = .assigned (.rnd x kk) →
      ∃ t, cycle keys rnd s = .next t ∧ t.inputs = s.inputs ∧ t.pc = s.pc + 2#16 ∧
        ∀ b, (t.reg x).getLsbD b = (rnd.getLsbD b && kk.getLsbD b)) ∧
    (∀ x, (h : (s.reg x).toNat ≤ 15) → decode (wordAt s) = .assigned (.skp x) →
      ∃ t, cycle keys rnd s = .next t ∧ t.inputs = s.inputs ∧
        t.pc = if keys[(s.reg x).toNat] = true then s.pc + 4#16 else s.pc + 2#16) ∧
    (∀ x, (h : (s.reg x).toNat ≤ 15) → decode (wordAt s) = .assigned (.sknp x) →
      ∃ t, cycle keys rnd s = .next t ∧ t.inputs = s.inputs ∧
        t.pc = if keys[(s.reg x).toNat] = true then s.pc + 2#16 else s.pc + 4#16) ∧
    (∀ x, decode (wordAt s) = .assigned (.ldVxK x) →
      ((∀ k, (h : k < 16) → keys[k] = false) →
        ∃ t, cycle keys rnd s = .next t ∧ t.inputs = s.inputs ∧ t.pc = s.pc ∧ ∀ r, t.reg r = s.reg r) ∧
      (∀ k, (h : k < 16) → keys[k] = true → (∀ j, (hj : j < k) → keys[j] = false) →
        ∃ t, cycle keys rnd s = .next t ∧ t.inputs = s.inputs ∧ t.pc = s.pc + 2#16 ∧ (t.reg x).toNat = k))
end

