-- ==== Sys2Proof/Laws/PerInstr.lean ====
section
/-! SUPPORT. A fact about every instruction, one lemma per constructor: its word stands in its own row of the opcode
map (30_encoding.md R65, R69). -/

namespace Sys2Proof.Laws

/-- Fields of the three word shapes (30_encoding.md R55). -/
theorem wordNnn_mask (op : BitVec 4) (nnn : BitVec 12) : wordNnn op nnn &&& 0xF000#16 = op ++ 0x000#12 := by
  rw [show (0xF000#16 : BitVec 16) = (0xF#4 ++ 0x000#12 : BitVec 16) from rfl, wordNnn, BitVec.and_append]
  rw [show (0xF#4 : BitVec 4) = BitVec.allOnes 4 from rfl, BitVec.and_allOnes, BitVec.and_zero]

theorem wordXKk_maskOp (op : BitVec 4) (x : Reg) (kk : Byte) : wordXKk op x kk &&& 0xF000#16 = op ++ 0x000#12 :=
  wordNnn_mask op _

theorem wordXKk_maskKk (op : BitVec 4) (x : Reg) (kk : Byte) :
    wordXKk op x kk &&& 0xF0FF#16 = op ++ (0x0#4 ++ kk : BitVec 12) := by
  rw [show (0xF0FF#16 : BitVec 16) = (0xF#4 ++ (0x0#4 ++ 0xFF#8 : BitVec 12) : BitVec 16) from rfl, wordXKk,
    BitVec.and_append, BitVec.and_append]
  rw [show (0xF#4 : BitVec 4) = BitVec.allOnes 4 from rfl, show (0xFF#8 : BitVec 8) = BitVec.allOnes 8 from rfl,
    BitVec.and_allOnes, BitVec.and_allOnes, BitVec.and_zero]

theorem wordXYN_maskOp (op : BitVec 4) (x y : Reg) (n : BitVec 4) : wordXYN op x y n &&& 0xF000#16 = op ++ 0x000#12 :=
  wordNnn_mask op _

theorem wordXYN_maskN (op : BitVec 4) (x y : Reg) (n : BitVec 4) :
    wordXYN op x y n &&& 0xF00F#16 = op ++ (0x0#4 ++ (0x0#4 ++ n : BitVec 8) : BitVec 12) := by
  rw [show (0xF00F#16 : BitVec 16) = (0xF#4 ++ (0x0#4 ++ (0x0#4 ++ 0xF#4 : BitVec 8) : BitVec 12) : BitVec 16) from rfl,
    wordXYN, BitVec.and_append, BitVec.and_append, BitVec.and_append]
  rw [show (0xF#4 : BitVec 4) = BitVec.allOnes 4 from rfl, BitVec.and_allOnes, BitVec.and_allOnes, BitVec.and_zero,
    BitVec.and_zero]

theorem wordXKk_maskLowNibble (op : BitVec 4) (x : Reg) (a b : BitVec 4) :
    wordXKk op x (a ++ b : BitVec 8) &&& 0xF00F#16 = op ++ (0x0#4 ++ (0x0#4 ++ b : BitVec 8) : BitVec 12) :=
  wordXYN_maskN op x a b

namespace CanonicalSpelling

/-- The row of R65 with the instruction's spelling is in the table, and the encoded word meets its mask and
pattern. -/
def Statement (i : Instr) : Prop :=
  ∃ r ∈ opcodeRows, r.spelling = i.spelling ∧ encode i &&& r.mask = r.pattern

theorem cls : Statement .cls :=
  ⟨⟨"00E0", 0xF00F, 0x0000⟩, by decide, rfl, rfl⟩
theorem ret : Statement .ret :=
  ⟨⟨"00EE", 0xF00F, 0x000E⟩, by decide, rfl, rfl⟩
theorem jp (nnn : BitVec 12) : Statement (.jp nnn) :=
  ⟨⟨"1nnn", 0xF000, 0x1000⟩, by decide, rfl, wordNnn_mask _ _⟩
theorem call (nnn : BitVec 12) : Statement (.call nnn) :=
  ⟨⟨"2nnn", 0xF000, 0x2000⟩, by decide, rfl, wordNnn_mask _ _⟩
theorem seImm (x : Reg) (kk : Byte) : Statement (.seImm x kk) :=
  ⟨⟨"3xkk", 0xF000, 0x3000⟩, by decide, rfl, wordXKk_maskOp _ _ _⟩
theorem sneImm (x : Reg) (kk : Byte) : Statement (.sneImm x kk) :=
  ⟨⟨"4xkk", 0xF000, 0x4000⟩, by decide, rfl, wordXKk_maskOp _ _ _⟩
theorem seReg (x y : Reg) : Statement (.seReg x y) :=
  ⟨⟨"5xy0", 0xF000, 0x5000⟩, by decide, rfl, wordXYN_maskOp _ _ _ _⟩
theorem ldImm (x : Reg) (kk : Byte) : Statement (.ldImm x kk) :=
  ⟨⟨"6xkk", 0xF000, 0x6000⟩, by decide, rfl, wordXKk_maskOp _ _ _⟩
theorem addImm (x : Reg) (kk : Byte) : Statement (.addImm x kk) :=
  ⟨⟨"7xkk", 0xF000, 0x7000⟩, by decide, rfl, wordXKk_maskOp _ _ _⟩
theorem ldReg (x y : Reg) : Statement (.ldReg x y) :=
  ⟨⟨"8xy0", 0xF00F, 0x8000⟩, by decide, rfl, wordXYN_maskN _ _ _ _⟩
theorem orReg (x y : Reg) : Statement (.orReg x y) :=
  ⟨⟨"8xy1", 0xF00F, 0x8001⟩, by decide, rfl, wordXYN_maskN _ _ _ _⟩
theorem andReg (x y : Reg) : Statement (.andReg x y) :=
  ⟨⟨"8xy2", 0xF00F, 0x8002⟩, by decide, rfl, wordXYN_maskN _ _ _ _⟩
theorem xorReg (x y : Reg) : Statement (.xorReg x y) :=
  ⟨⟨"8xy3", 0xF00F, 0x8003⟩, by decide, rfl, wordXYN_maskN _ _ _ _⟩
theorem addReg (x y : Reg) : Statement (.addReg x y) :=
  ⟨⟨"8xy4", 0xF00F, 0x8004⟩, by decide, rfl, wordXYN_maskN _ _ _ _⟩
theorem sub (x y : Reg) : Statement (.sub x y) :=
  ⟨⟨"8xy5", 0xF00F, 0x8005⟩, by decide, rfl, wordXYN_maskN _ _ _ _⟩
theorem shr (x : Reg) : Statement (.shr x) :=
  ⟨⟨"8xy6", 0xF00F, 0x8006⟩, by decide, rfl, wordXYN_maskN _ _ _ _⟩
theorem subn (x y : Reg) : Statement (.subn x y) :=
  ⟨⟨"8xy7", 0xF00F, 0x8007⟩, by decide, rfl, wordXYN_maskN _ _ _ _⟩
theorem shl (x : Reg) : Statement (.shl x) :=
  ⟨⟨"8xyE", 0xF00F, 0x800E⟩, by decide, rfl, wordXYN_maskN _ _ _ _⟩
theorem sneReg (x y : Reg) : Statement (.sneReg x y) :=
  ⟨⟨"9xy0", 0xF000, 0x9000⟩, by decide, rfl, wordXYN_maskOp _ _ _ _⟩
theorem ldI (nnn : BitVec 12) : Statement (.ldI nnn) :=
  ⟨⟨"Annn", 0xF000, 0xA000⟩, by decide, rfl, wordNnn_mask _ _⟩
theorem jpV0 (nnn : BitVec 12) : Statement (.jpV0 nnn) :=
  ⟨⟨"Bnnn", 0xF000, 0xB000⟩, by decide, rfl, wordNnn_mask _ _⟩
theorem rnd (x : Reg) (kk : Byte) : Statement (.rnd x kk) :=
  ⟨⟨"Cxkk", 0xF000, 0xC000⟩, by decide, rfl, wordXKk_maskOp _ _ _⟩
theorem drw (x y : Reg) (n : Nat) : Statement (.drw x y n) :=
  ⟨⟨"Dxyn", 0xF000, 0xD000⟩, by decide, rfl, wordXYN_maskOp _ _ _ _⟩
theorem skp (x : Reg) : Statement (.skp x) :=
  ⟨⟨"Ex9E", 0xF00F, 0xE00E⟩, by decide, rfl, wordXKk_maskLowNibble _ _ 0x9#4 0xE#4⟩
theorem sknp (x : Reg) : Statement (.sknp x) :=
  ⟨⟨"ExA1", 0xF00F, 0xE001⟩, by decide, rfl, wordXKk_maskLowNibble _ _ 0xA#4 0x1#4⟩
theorem ldVxDt (x : Reg) : Statement (.ldVxDt x) :=
  ⟨⟨"Fx07", 0xF0FF, 0xF007⟩, by decide, rfl, wordXKk_maskKk _ _ _⟩
theorem ldVxK (x : Reg) : Statement (.ldVxK x) :=
  ⟨⟨"Fx0A", 0xF0FF, 0xF00A⟩, by decide, rfl, wordXKk_maskKk _ _ _⟩
theorem ldDtVx (x : Reg) : Statement (.ldDtVx x) :=
  ⟨⟨"Fx15", 0xF0FF, 0xF015⟩, by decide, rfl, wordXKk_maskKk _ _ _⟩
theorem ldStVx (x : Reg) : Statement (.ldStVx x) :=
  ⟨⟨"Fx18", 0xF0FF, 0xF018⟩, by decide, rfl, wordXKk_maskKk _ _ _⟩
theorem addI (x : Reg) : Statement (.addI x) :=
  ⟨⟨"Fx1E", 0xF0FF, 0xF01E⟩, by decide, rfl, wordXKk_maskKk _ _ _⟩
theorem ldF (x : Reg) : Statement (.ldF x) :=
  ⟨⟨"Fx29", 0xF0FF, 0xF029⟩, by decide, rfl, wordXKk_maskKk _ _ _⟩
theorem ldB (x : Reg) : Statement (.ldB x) :=
  ⟨⟨"Fx33", 0xF0FF, 0xF033⟩, by decide, rfl, wordXKk_maskKk _ _ _⟩
theorem stRegs (x : Reg) : Statement (.stRegs x) :=
  ⟨⟨"Fx55", 0xF0FF, 0xF055⟩, by decide, rfl, wordXKk_maskKk _ _ _⟩
theorem ldRegs (x : Reg) : Statement (.ldRegs x) :=
  ⟨⟨"Fx65", 0xF0FF, 0xF065⟩, by decide, rfl, wordXKk_maskKk _ _ _⟩

end CanonicalSpelling

end Sys2Proof.Laws
end

