-- ==== Sys2Proof/Laws/Encoding.lean ====
section
/-! SUPPORT. The fields of the words the encoder builds, the fields a mask and pattern fix, and the two bytes of a
word. -/

namespace Sys2Proof.Laws

/-! ### Reading a field of a word that was put together from fields (30_encoding.md R55) -/

@[simp] theorem fieldOp_wordNnn (op : BitVec 4) (nnn : BitVec 12) : fieldOp (wordNnn op nnn) = op :=
  BitVec.extractLsb'_append_eq_left

@[simp] theorem fieldNnn_wordNnn (op : BitVec 4) (nnn : BitVec 12) : fieldNnn (wordNnn op nnn) = nnn :=
  BitVec.extractLsb'_append_eq_right

@[simp] theorem fieldOp_wordXKk (op : BitVec 4) (x : Reg) (kk : Byte) : fieldOp (wordXKk op x kk) = op :=
  BitVec.extractLsb'_append_eq_left

@[simp] theorem fieldX_wordXKk (op : BitVec 4) (x : Reg) (kk : Byte) : fieldX (wordXKk op x kk) = x := by
  unfold fieldX wordXKk
  rw [BitVec.extractLsb'_append_eq_of_add_le (by omega), BitVec.extractLsb'_append_eq_left]

@[simp] theorem fieldKk_wordXKk (op : BitVec 4) (x : Reg) (kk : Byte) : fieldKk (wordXKk op x kk) = kk := by
  unfold fieldKk wordXKk
  rw [BitVec.extractLsb'_append_eq_of_add_le (by omega), BitVec.extractLsb'_append_eq_right]

@[simp] theorem fieldOp_wordXYN (op : BitVec 4) (x y : Reg) (n : BitVec 4) : fieldOp (wordXYN op x y n) = op :=
  BitVec.extractLsb'_append_eq_left

@[simp] theorem fieldX_wordXYN (op : BitVec 4) (x y : Reg) (n : BitVec 4) : fieldX (wordXYN op x y n) = x :=
  fieldX_wordXKk op x _

@[simp] theorem fieldY_wordXYN (op : BitVec 4) (x y : Reg) (n : BitVec 4) : fieldY (wordXYN op x y n) = y := by
  unfold fieldY wordXYN
  rw [BitVec.extractLsb'_append_eq_of_add_le (by omega), BitVec.extractLsb'_append_eq_of_add_le (by omega),
    BitVec.extractLsb'_append_eq_left]

@[simp] theorem fieldN_wordXYN (op : BitVec 4) (x y : Reg) (n : BitVec 4) : fieldN (wordXYN op x y n) = n := by
  unfold fieldN wordXYN
  rw [BitVec.extractLsb'_append_eq_of_add_le (by omega), BitVec.extractLsb'_append_eq_of_add_le (by omega),
    BitVec.extractLsb'_append_eq_right]

/-! ### The keys that a mask and pattern fix (R59 to R63) -/

theorem fieldOp_of_mask {w m p : BitVec 16} (hm : m.extractLsb' 12 4 = BitVec.allOnes 4) (h : w &&& m = p) :
    fieldOp w = p.extractLsb' 12 4 := by
  have e := congrArg (BitVec.extractLsb' 12 4) h
  rwa [BitVec.extractLsb'_and, hm, BitVec.and_allOnes] at e

theorem fieldN_of_mask {w m p : BitVec 16} (hm : m.extractLsb' 0 4 = BitVec.allOnes 4) (h : w &&& m = p) :
    fieldN w = p.extractLsb' 0 4 := by
  have e := congrArg (BitVec.extractLsb' 0 4) h
  rwa [BitVec.extractLsb'_and, hm, BitVec.and_allOnes] at e

theorem fieldKk_of_mask {w m p : BitVec 16} (hm : m.extractLsb' 0 8 = BitVec.allOnes 8) (h : w &&& m = p) :
    fieldKk w = p.extractLsb' 0 8 := by
  have e := congrArg (BitVec.extractLsb' 0 8) h
  rwa [BitVec.extractLsb'_and, hm, BitVec.and_allOnes] at e

/-! ### A word and its bytes (20_memory.md R43) -/

theorem word_append_bytes (w : InstrWord) : (w.extractLsb' 8 8 ++ w.extractLsb' 0 8 : BitVec 16) = w := by
  have e : (w.extractLsb' 8 8 ++ w.extractLsb' 0 8 : BitVec 16) = w.extractLsb' 0 16 :=
    BitVec.extractLsb'_append_extractLsb'_eq_extractLsb' rfl
  rw [e, BitVec.extractLsb'_eq_self]

@[simp] theorem decodeBytes_bytesOfWord (w : InstrWord) (rest : List Byte) :
    decodeBytes (bytesOfWord w ++ rest) = .ok (decode w, rest) := by
  simp only [bytesOfWord, List.cons_append, List.nil_append, decodeBytes, wordOfBytes, word_append_bytes]

theorem tableWord_of_lt {w : Nat} (h : w < 65536) : tableWord 16 w = BitVec.ofNat 16 w := by
  unfold tableWord
  rw [Nat.mod_eq_of_lt (by omega)]

theorem decodeTableWord_eq_some {nbits w : Nat} {i : Instr} :
    decodeTableWord nbits w = some i ↔ decode (tableWord nbits w) = .assigned i := by
  have e := decodeBytes_bytesOfWord (tableWord nbits w) []
  rw [List.append_nil] at e
  unfold decodeTableWord
  rw [e]
  cases decode (tableWord nbits w) <;> simp

end Sys2Proof.Laws
end

