-- ==== Sys2Proof/Laws/State.lean ====
section
/-! SUPPORT. One lemma per field per update of the state, true by unfolding, and what each register read and memory
read says after each update. Later proofs rewrite with these and never unfold an update. -/

namespace Sys2Proof.Machine

variable (s : State)

/-! ### `State.setReg` -/

@[simp] theorem State.setReg_mem (x : Reg) (b : Byte) : (s.setReg x b).mem = s.mem := rfl
@[simp] theorem State.setReg_v (x : Reg) (b : Byte) : (s.setReg x b).v = s.v.set x.toNat b x.isLt := rfl
@[simp] theorem State.setReg_i (x : Reg) (b : Byte) : (s.setReg x b).i = s.i := rfl
@[simp] theorem State.setReg_pc (x : Reg) (b : Byte) : (s.setReg x b).pc = s.pc := rfl
@[simp] theorem State.setReg_stack (x : Reg) (b : Byte) : (s.setReg x b).stack = s.stack := rfl
@[simp] theorem State.setReg_sp (x : Reg) (b : Byte) : (s.setReg x b).sp = s.sp := rfl
@[simp] theorem State.setReg_dt (x : Reg) (b : Byte) : (s.setReg x b).dt = s.dt := rfl
@[simp] theorem State.setReg_st (x : Reg) (b : Byte) : (s.setReg x b).st = s.st := rfl
@[simp] theorem State.setReg_fb (x : Reg) (b : Byte) : (s.setReg x b).fb = s.fb := rfl
@[simp] theorem State.setReg_fault (x : Reg) (b : Byte) : (s.setReg x b).fault = s.fault := rfl
@[simp] theorem State.setReg_font (x : Reg) (b : Byte) : (s.setReg x b).font = s.font := rfl
@[simp] theorem State.setReg_inputs (x : Reg) (b : Byte) : (s.setReg x b).inputs = s.inputs := rfl
@[simp] theorem State.setReg_cycle (x : Reg) (b : Byte) : (s.setReg x b).cycle = s.cycle := rfl

/-! ### `State.setI` -/

@[simp] theorem State.setI_mem (a : Addr) : (s.setI a).mem = s.mem := rfl
@[simp] theorem State.setI_v (a : Addr) : (s.setI a).v = s.v := rfl
@[simp] theorem State.setI_i (a : Addr) : (s.setI a).i = a := rfl
@[simp] theorem State.setI_pc (a : Addr) : (s.setI a).pc = s.pc := rfl
@[simp] theorem State.setI_stack (a : Addr) : (s.setI a).stack = s.stack := rfl
@[simp] theorem State.setI_sp (a : Addr) : (s.setI a).sp = s.sp := rfl
@[simp] theorem State.setI_dt (a : Addr) : (s.setI a).dt = s.dt := rfl
@[simp] theorem State.setI_st (a : Addr) : (s.setI a).st = s.st := rfl
@[simp] theorem State.setI_fb (a : Addr) : (s.setI a).fb = s.fb := rfl
@[simp] theorem State.setI_fault (a : Addr) : (s.setI a).fault = s.fault := rfl
@[simp] theorem State.setI_font (a : Addr) : (s.setI a).font = s.font := rfl
@[simp] theorem State.setI_inputs (a : Addr) : (s.setI a).inputs = s.inputs := rfl
@[simp] theorem State.setI_cycle (a : Addr) : (s.setI a).cycle = s.cycle := rfl

/-! ### `State.setPc` -/

@[simp] theorem State.setPc_mem (a : Addr) : (s.setPc a).mem = s.mem := rfl
@[simp] theorem State.setPc_v (a : Addr) : (s.setPc a).v = s.v := rfl
@[simp] theorem State.setPc_i (a : Addr) : (s.setPc a).i = s.i := rfl
@[simp] theorem State.setPc_pc (a : Addr) : (s.setPc a).pc = a := rfl
@[simp] theorem State.setPc_stack (a : Addr) : (s.setPc a).stack = s.stack := rfl
@[simp] theorem State.setPc_sp (a : Addr) : (s.setPc a).sp = s.sp := rfl
@[simp] theorem State.setPc_dt (a : Addr) : (s.setPc a).dt = s.dt := rfl
@[simp] theorem State.setPc_st (a : Addr) : (s.setPc a).st = s.st := rfl
@[simp] theorem State.setPc_fb (a : Addr) : (s.setPc a).fb = s.fb := rfl
@[simp] theorem State.setPc_fault (a : Addr) : (s.setPc a).fault = s.fault := rfl
@[simp] theorem State.setPc_font (a : Addr) : (s.setPc a).font = s.font := rfl
@[simp] theorem State.setPc_inputs (a : Addr) : (s.setPc a).inputs = s.inputs := rfl
@[simp] theorem State.setPc_cycle (a : Addr) : (s.setPc a).cycle = s.cycle := rfl

/-! ### `State.advancePc` -/

@[simp] theorem State.advancePc_mem : s.advancePc.mem = s.mem := rfl
@[simp] theorem State.advancePc_v : s.advancePc.v = s.v := rfl
@[simp] theorem State.advancePc_i : s.advancePc.i = s.i := rfl
@[simp] theorem State.advancePc_pc : s.advancePc.pc = s.pc + 2#16 := rfl
@[simp] theorem State.advancePc_stack : s.advancePc.stack = s.stack := rfl
@[simp] theorem State.advancePc_sp : s.advancePc.sp = s.sp := rfl
@[simp] theorem State.advancePc_dt : s.advancePc.dt = s.dt := rfl
@[simp] theorem State.advancePc_st : s.advancePc.st = s.st := rfl
@[simp] theorem State.advancePc_fb : s.advancePc.fb = s.fb := rfl
@[simp] theorem State.advancePc_fault : s.advancePc.fault = s.fault := rfl
@[simp] theorem State.advancePc_font : s.advancePc.font = s.font := rfl
@[simp] theorem State.advancePc_inputs : s.advancePc.inputs = s.inputs := rfl
@[simp] theorem State.advancePc_cycle : s.advancePc.cycle = s.cycle := rfl

/-! ### `State.setDt` -/

@[simp] theorem State.setDt_mem (b : Byte) : (s.setDt b).mem = s.mem := rfl
@[simp] theorem State.setDt_v (b : Byte) : (s.setDt b).v = s.v := rfl
@[simp] theorem State.setDt_i (b : Byte) : (s.setDt b).i = s.i := rfl
@[simp] theorem State.setDt_pc (b : Byte) : (s.setDt b).pc = s.pc := rfl
@[simp] theorem State.setDt_stack (b : Byte) : (s.setDt b).stack = s.stack := rfl
@[simp] theorem State.setDt_sp (b : Byte) : (s.setDt b).sp = s.sp := rfl
@[simp] theorem State.setDt_dt (b : Byte) : (s.setDt b).dt = b := rfl
@[simp] theorem State.setDt_st (b : Byte) : (s.setDt b).st = s.st := rfl
@[simp] theorem State.setDt_fb (b : Byte) : (s.setDt b).fb = s.fb := rfl
@[simp] theorem State.setDt_fault (b : Byte) : (s.setDt b).fault = s.fault := rfl
@[simp] theorem State.setDt_font (b : Byte) : (s.setDt b).font = s.font := rfl
@[simp] theorem State.setDt_inputs (b : Byte) : (s.setDt b).inputs = s.inputs := rfl
@[simp] theorem State.setDt_cycle (b : Byte) : (s.setDt b).cycle = s.cycle := rfl

/-! ### `State.setSt` -/

@[simp] theorem State.setSt_mem (b : Byte) : (s.setSt b).mem = s.mem := rfl
@[simp] theorem State.setSt_v (b : Byte) : (s.setSt b).v = s.v := rfl
@[simp] theorem State.setSt_i (b : Byte) : (s.setSt b).i = s.i := rfl
@[simp] theorem State.setSt_pc (b : Byte) : (s.setSt b).pc = s.pc := rfl
@[simp] theorem State.setSt_stack (b : Byte) : (s.setSt b).stack = s.stack := rfl
@[simp] theorem State.setSt_sp (b : Byte) : (s.setSt b).sp = s.sp := rfl
@[simp] theorem State.setSt_dt (b : Byte) : (s.setSt b).dt = s.dt := rfl
@[simp] theorem State.setSt_st (b : Byte) : (s.setSt b).st = b := rfl
@[simp] theorem State.setSt_fb (b : Byte) : (s.setSt b).fb = s.fb := rfl
@[simp] theorem State.setSt_fault (b : Byte) : (s.setSt b).fault = s.fault := rfl
@[simp] theorem State.setSt_font (b : Byte) : (s.setSt b).font = s.font := rfl
@[simp] theorem State.setSt_inputs (b : Byte) : (s.setSt b).inputs = s.inputs := rfl
@[simp] theorem State.setSt_cycle (b : Byte) : (s.setSt b).cycle = s.cycle := rfl

/-! ### `State.push` -/

@[simp] theorem State.push_mem (a : Addr) : (s.push a).mem = s.mem := rfl
@[simp] theorem State.push_v (a : Addr) : (s.push a).v = s.v := rfl
@[simp] theorem State.push_i (a : Addr) : (s.push a).i = s.i := rfl
@[simp] theorem State.push_pc (a : Addr) : (s.push a).pc = s.pc := rfl
@[simp] theorem State.push_stack (a : Addr) : (s.push a).stack = s.stack.setIfInBounds s.sp.toNat a := rfl
@[simp] theorem State.push_sp (a : Addr) : (s.push a).sp = s.sp + 1#8 := rfl
@[simp] theorem State.push_dt (a : Addr) : (s.push a).dt = s.dt := rfl
@[simp] theorem State.push_st (a : Addr) : (s.push a).st = s.st := rfl
@[simp] theorem State.push_fb (a : Addr) : (s.push a).fb = s.fb := rfl
@[simp] theorem State.push_fault (a : Addr) : (s.push a).fault = s.fault := rfl
@[simp] theorem State.push_font (a : Addr) : (s.push a).font = s.font := rfl
@[simp] theorem State.push_inputs (a : Addr) : (s.push a).inputs = s.inputs := rfl
@[simp] theorem State.push_cycle (a : Addr) : (s.push a).cycle = s.cycle := rfl

/-! ### `State.poke` -/

@[simp] theorem State.poke_mem (a : Nat) (b : Byte) : (s.poke a b).mem = Memory.write s.font a b s.mem := rfl
@[simp] theorem State.poke_v (a : Nat) (b : Byte) : (s.poke a b).v = s.v := rfl
@[simp] theorem State.poke_i (a : Nat) (b : Byte) : (s.poke a b).i = s.i := rfl
@[simp] theorem State.poke_pc (a : Nat) (b : Byte) : (s.poke a b).pc = s.pc := rfl
@[simp] theorem State.poke_stack (a : Nat) (b : Byte) : (s.poke a b).stack = s.stack := rfl
@[simp] theorem State.poke_sp (a : Nat) (b : Byte) : (s.poke a b).sp = s.sp := rfl
@[simp] theorem State.poke_dt (a : Nat) (b : Byte) : (s.poke a b).dt = s.dt := rfl
@[simp] theorem State.poke_st (a : Nat) (b : Byte) : (s.poke a b).st = s.st := rfl
@[simp] theorem State.poke_fb (a : Nat) (b : Byte) : (s.poke a b).fb = s.fb := rfl
@[simp] theorem State.poke_fault (a : Nat) (b : Byte) : (s.poke a b).fault = s.fault := rfl
@[simp] theorem State.poke_font (a : Nat) (b : Byte) : (s.poke a b).font = s.font := rfl
@[simp] theorem State.poke_inputs (a : Nat) (b : Byte) : (s.poke a b).inputs = s.inputs := rfl
@[simp] theorem State.poke_cycle (a : Nat) (b : Byte) : (s.poke a b).cycle = s.cycle := rfl

/-! ### `State.setFb` -/

@[simp] theorem State.setFb_mem (fb : Framebuffer) : (s.setFb fb).mem = s.mem := rfl
@[simp] theorem State.setFb_v (fb : Framebuffer) : (s.setFb fb).v = s.v := rfl
@[simp] theorem State.setFb_i (fb : Framebuffer) : (s.setFb fb).i = s.i := rfl
@[simp] theorem State.setFb_pc (fb : Framebuffer) : (s.setFb fb).pc = s.pc := rfl
@[simp] theorem State.setFb_stack (fb : Framebuffer) : (s.setFb fb).stack = s.stack := rfl
@[simp] theorem State.setFb_sp (fb : Framebuffer) : (s.setFb fb).sp = s.sp := rfl
@[simp] theorem State.setFb_dt (fb : Framebuffer) : (s.setFb fb).dt = s.dt := rfl
@[simp] theorem State.setFb_st (fb : Framebuffer) : (s.setFb fb).st = s.st := rfl
@[simp] theorem State.setFb_fb (fb : Framebuffer) : (s.setFb fb).fb = fb := rfl
@[simp] theorem State.setFb_fault (fb : Framebuffer) : (s.setFb fb).fault = s.fault := rfl
@[simp] theorem State.setFb_font (fb : Framebuffer) : (s.setFb fb).font = s.font := rfl
@[simp] theorem State.setFb_inputs (fb : Framebuffer) : (s.setFb fb).inputs = s.inputs := rfl
@[simp] theorem State.setFb_cycle (fb : Framebuffer) : (s.setFb fb).cycle = s.cycle := rfl

/-! ### `State.raiseFault` -/

@[simp] theorem State.raiseFault_mem (k : FaultKind) : (s.raiseFault k).mem = s.mem := rfl
@[simp] theorem State.raiseFault_v (k : FaultKind) : (s.raiseFault k).v = s.v := rfl
@[simp] theorem State.raiseFault_i (k : FaultKind) : (s.raiseFault k).i = s.i := rfl
@[simp] theorem State.raiseFault_pc (k : FaultKind) : (s.raiseFault k).pc = s.pc := rfl
@[simp] theorem State.raiseFault_stack (k : FaultKind) : (s.raiseFault k).stack = s.stack := rfl
@[simp] theorem State.raiseFault_sp (k : FaultKind) : (s.raiseFault k).sp = s.sp := rfl
@[simp] theorem State.raiseFault_dt (k : FaultKind) : (s.raiseFault k).dt = s.dt := rfl
@[simp] theorem State.raiseFault_st (k : FaultKind) : (s.raiseFault k).st = s.st := rfl
@[simp] theorem State.raiseFault_fb (k : FaultKind) : (s.raiseFault k).fb = s.fb := rfl
@[simp] theorem State.raiseFault_fault (k : FaultKind) : (s.raiseFault k).fault = some k := rfl
@[simp] theorem State.raiseFault_font (k : FaultKind) : (s.raiseFault k).font = s.font := rfl
@[simp] theorem State.raiseFault_inputs (k : FaultKind) : (s.raiseFault k).inputs = s.inputs := rfl
@[simp] theorem State.raiseFault_cycle (k : FaultKind) : (s.raiseFault k).cycle = s.cycle := rfl

/-! ### `State.setRegFlag`, `State.skipIf`, `State.setRegs` and `State.pokeAll`: the fields they keep -/

@[simp] theorem State.setRegFlag_mem (x : Reg) (b c : Byte) : (s.setRegFlag x b c).mem = s.mem := rfl
@[simp] theorem State.setRegFlag_i (x : Reg) (b c : Byte) : (s.setRegFlag x b c).i = s.i := rfl
@[simp] theorem State.setRegFlag_pc (x : Reg) (b c : Byte) : (s.setRegFlag x b c).pc = s.pc := rfl
@[simp] theorem State.setRegFlag_stack (x : Reg) (b c : Byte) : (s.setRegFlag x b c).stack = s.stack := rfl
@[simp] theorem State.setRegFlag_sp (x : Reg) (b c : Byte) : (s.setRegFlag x b c).sp = s.sp := rfl
@[simp] theorem State.setRegFlag_dt (x : Reg) (b c : Byte) : (s.setRegFlag x b c).dt = s.dt := rfl
@[simp] theorem State.setRegFlag_st (x : Reg) (b c : Byte) : (s.setRegFlag x b c).st = s.st := rfl
@[simp] theorem State.setRegFlag_fb (x : Reg) (b c : Byte) : (s.setRegFlag x b c).fb = s.fb := rfl
@[simp] theorem State.setRegFlag_fault (x : Reg) (b c : Byte) : (s.setRegFlag x b c).fault = s.fault := rfl
@[simp] theorem State.setRegFlag_font (x : Reg) (b c : Byte) : (s.setRegFlag x b c).font = s.font := rfl
@[simp] theorem State.setRegFlag_inputs (x : Reg) (b c : Byte) : (s.setRegFlag x b c).inputs = s.inputs := rfl
@[simp] theorem State.setRegFlag_cycle (x : Reg) (b c : Byte) : (s.setRegFlag x b c).cycle = s.cycle := rfl
@[simp] theorem State.skipIf_mem (c : Bool) : (s.skipIf c).mem = s.mem := by cases c <;> rfl
@[simp] theorem State.skipIf_v (c : Bool) : (s.skipIf c).v = s.v := by cases c <;> rfl
@[simp] theorem State.skipIf_i (c : Bool) : (s.skipIf c).i = s.i := by cases c <;> rfl
@[simp] theorem State.skipIf_stack (c : Bool) : (s.skipIf c).stack = s.stack := by cases c <;> rfl
@[simp] theorem State.skipIf_sp (c : Bool) : (s.skipIf c).sp = s.sp := by cases c <;> rfl
@[simp] theorem State.skipIf_dt (c : Bool) : (s.skipIf c).dt = s.dt := by cases c <;> rfl
@[simp] theorem State.skipIf_st (c : Bool) : (s.skipIf c).st = s.st := by cases c <;> rfl
@[simp] theorem State.skipIf_fb (c : Bool) : (s.skipIf c).fb = s.fb := by cases c <;> rfl
@[simp] theorem State.skipIf_fault (c : Bool) : (s.skipIf c).fault = s.fault := by cases c <;> rfl
@[simp] theorem State.skipIf_font (c : Bool) : (s.skipIf c).font = s.font := by cases c <;> rfl
@[simp] theorem State.skipIf_inputs (c : Bool) : (s.skipIf c).inputs = s.inputs := by cases c <;> rfl
@[simp] theorem State.skipIf_cycle (c : Bool) : (s.skipIf c).cycle = s.cycle := by cases c <;> rfl
@[simp] theorem State.skipIf_pc (c : Bool) : (s.skipIf c).pc = if c then s.pc + 4#16 else s.pc + 2#16 := by
  cases c
  · rfl
  · change s.pc + 2#16 + 2#16 = s.pc + 4#16
    rw [BitVec.add_assoc]
    rfl
@[simp] theorem State.setRegs_mem (k : Nat) (bs : List Byte) : (s.setRegs k bs).mem = s.mem := by
  induction bs generalizing s k with
  | nil => rfl
  | cons b bs ih => exact ih _ _
@[simp] theorem State.setRegs_i (k : Nat) (bs : List Byte) : (s.setRegs k bs).i = s.i := by
  induction bs generalizing s k with
  | nil => rfl
  | cons b bs ih => exact ih _ _
@[simp] theorem State.setRegs_pc (k : Nat) (bs : List Byte) : (s.setRegs k bs).pc = s.pc := by
  induction bs generalizing s k with
  | nil => rfl
  | cons b bs ih => exact ih _ _
@[simp] theorem State.setRegs_stack (k : Nat) (bs : List Byte) : (s.setRegs k bs).stack = s.stack := by
  induction bs generalizing s k with
  | nil => rfl
  | cons b bs ih => exact ih _ _
@[simp] theorem State.setRegs_sp (k : Nat) (bs : List Byte) : (s.setRegs k bs).sp = s.sp := by
  induction bs generalizing s k with
  | nil => rfl
  | cons b bs ih => exact ih _ _
@[simp] theorem State.setRegs_dt (k : Nat) (bs : List Byte) : (s.setRegs k bs).dt = s.dt := by
  induction bs generalizing s k with
  | nil => rfl
  | cons b bs ih => exact ih _ _
@[simp] theorem State.setRegs_st (k : Nat) (bs : List Byte) : (s.setRegs k bs).st = s.st := by
  induction bs generalizing s k with
  | nil => rfl
  | cons b bs ih => exact ih _ _
@[simp] theorem State.setRegs_fb (k : Nat) (bs : List Byte) : (s.setRegs k bs).fb = s.fb := by
  induction bs generalizing s k with
  | nil => rfl
  | cons b bs ih => exact ih _ _
@[simp] theorem State.setRegs_fault (k : Nat) (bs : List Byte) : (s.setRegs k bs).fault = s.fault := by
  induction bs generalizing s k with
  | nil => rfl
  | cons b bs ih => exact ih _ _
@[simp] theorem State.setRegs_font (k : Nat) (bs : List Byte) : (s.setRegs k bs).font = s.font := by
  induction bs generalizing s k with
  | nil => rfl
  | cons b bs ih => exact ih _ _
@[simp] theorem State.setRegs_inputs (k : Nat) (bs : List Byte) : (s.setRegs k bs).inputs = s.inputs := by
  induction bs generalizing s k with
  | nil => rfl
  | cons b bs ih => exact ih _ _
@[simp] theorem State.setRegs_cycle (k : Nat) (bs : List Byte) : (s.setRegs k bs).cycle = s.cycle := by
  induction bs generalizing s k with
  | nil => rfl
  | cons b bs ih => exact ih _ _
@[simp] theorem State.pokeAll_v (a : Nat) (bs : List Byte) : (s.pokeAll a bs).v = s.v := by
  induction bs generalizing s a with
  | nil => rfl
  | cons b bs ih => exact ih _ _
@[simp] theorem State.pokeAll_i (a : Nat) (bs : List Byte) : (s.pokeAll a bs).i = s.i := by
  induction bs generalizing s a with
  | nil => rfl
  | cons b bs ih => exact ih _ _
@[simp] theorem State.pokeAll_pc (a : Nat) (bs : List Byte) : (s.pokeAll a bs).pc = s.pc := by
  induction bs generalizing s a with
  | nil => rfl
  | cons b bs ih => exact ih _ _
@[simp] theorem State.pokeAll_stack (a : Nat) (bs : List Byte) : (s.pokeAll a bs).stack = s.stack := by
  induction bs generalizing s a with
  | nil => rfl
  | cons b bs ih => exact ih _ _
@[simp] theorem State.pokeAll_sp (a : Nat) (bs : List Byte) : (s.pokeAll a bs).sp = s.sp := by
  induction bs generalizing s a with
  | nil => rfl
  | cons b bs ih => exact ih _ _
@[simp] theorem State.pokeAll_dt (a : Nat) (bs : List Byte) : (s.pokeAll a bs).dt = s.dt := by
  induction bs generalizing s a with
  | nil => rfl
  | cons b bs ih => exact ih _ _
@[simp] theorem State.pokeAll_st (a : Nat) (bs : List Byte) : (s.pokeAll a bs).st = s.st := by
  induction bs generalizing s a with
  | nil => rfl
  | cons b bs ih => exact ih _ _
@[simp] theorem State.pokeAll_fb (a : Nat) (bs : List Byte) : (s.pokeAll a bs).fb = s.fb := by
  induction bs generalizing s a with
  | nil => rfl
  | cons b bs ih => exact ih _ _
@[simp] theorem State.pokeAll_fault (a : Nat) (bs : List Byte) : (s.pokeAll a bs).fault = s.fault := by
  induction bs generalizing s a with
  | nil => rfl
  | cons b bs ih => exact ih _ _
@[simp] theorem State.pokeAll_font (a : Nat) (bs : List Byte) : (s.pokeAll a bs).font = s.font := by
  induction bs generalizing s a with
  | nil => rfl
  | cons b bs ih => exact ih _ _
@[simp] theorem State.pokeAll_inputs (a : Nat) (bs : List Byte) : (s.pokeAll a bs).inputs = s.inputs := by
  induction bs generalizing s a with
  | nil => rfl
  | cons b bs ih => exact ih _ _
@[simp] theorem State.pokeAll_cycle (a : Nat) (bs : List Byte) : (s.pokeAll a bs).cycle = s.cycle := by
  induction bs generalizing s a with
  | nil => rfl
  | cons b bs ih => exact ih _ _

/-! ### Reading a register -/

theorem State.reg_congr {s t : State} (h : t.v = s.v) (x : Reg) : t.reg x = s.reg x := by
  simp only [State.reg, h]

theorem State.reg_setReg (x y : Reg) (b : Byte) : (s.setReg x b).reg y = if y = x then b else s.reg y := by
  simp only [State.reg, State.setReg_v, Vector.getElem_set]
  by_cases h : y = x
  · simp [h]
  · rw [if_neg h, if_neg (fun h' => h (BitVec.eq_of_toNat_eq h'.symm))]

@[simp] theorem State.reg_setReg_self (x : Reg) (b : Byte) : (s.setReg x b).reg x = b := by
  simp [State.reg_setReg]

theorem State.reg_setReg_of_ne {x y : Reg} (h : y ≠ x) (b : Byte) : (s.setReg x b).reg y = s.reg y := by
  simp [State.reg_setReg, h]

/-- The flag is what remains in VF (00_scope.md R13). -/
theorem State.reg_setRegFlag (x y : Reg) (b c : Byte) :
    (s.setRegFlag x b c).reg y = if y = vf then c else if y = x then b else s.reg y := by
  simp only [State.setRegFlag, State.reg_setReg]

@[simp] theorem State.reg_setI (x : Reg) (a : Addr) : (s.setI a).reg x = s.reg x := rfl
@[simp] theorem State.reg_setPc (x : Reg) (a : Addr) : (s.setPc a).reg x = s.reg x := rfl
@[simp] theorem State.reg_advancePc (x : Reg) : s.advancePc.reg x = s.reg x := rfl
@[simp] theorem State.reg_setDt (x : Reg) (b : Byte) : (s.setDt b).reg x = s.reg x := rfl
@[simp] theorem State.reg_setSt (x : Reg) (b : Byte) : (s.setSt b).reg x = s.reg x := rfl
@[simp] theorem State.reg_push (x : Reg) (a : Addr) : (s.push a).reg x = s.reg x := rfl
@[simp] theorem State.reg_poke (x : Reg) (a : Nat) (b : Byte) : (s.poke a b).reg x = s.reg x := rfl
@[simp] theorem State.reg_setFb (x : Reg) (fb : Framebuffer) : (s.setFb fb).reg x = s.reg x := rfl
@[simp] theorem State.reg_raiseFault (x : Reg) (k : FaultKind) : (s.raiseFault k).reg x = s.reg x := rfl
@[simp] theorem State.reg_skipIf (x : Reg) (c : Bool) : (s.skipIf c).reg x = s.reg x := State.reg_congr (by simp) x
@[simp] theorem State.reg_pokeAll (x : Reg) (a : Nat) (bs : List Byte) : (s.pokeAll a bs).reg x = s.reg x :=
  State.reg_congr (by simp) x

/-! ### Reading memory, a stack slot, a cell, the inputs -/

theorem State.peek_congr {s t : State} (hm : t.mem = s.mem) (hf : t.font = s.font) (a : Nat) : t.peek a = s.peek a := by
  simp only [State.peek, hm, hf]

theorem State.slot_congr {s t : State} (h : t.stack = s.stack) (j : Nat) : t.slot j = s.slot j := by
  simp only [State.slot, h]

theorem State.cell_congr {s t : State} (h : t.fb = s.fb) (x y : Nat) : t.cell x y = s.cell x y := by
  simp only [State.cell, h]

theorem State.input_congr {s t : State} (hi : t.inputs = s.inputs) (hc : t.cycle = s.cycle) : t.input = s.input := by
  simp only [State.input, hi, hc]

/-- The next input is the head of the host's queue (10_state.md R32, R33). -/
@[simp] theorem State.input_queued (inp : CycleInput) (rest : List CycleInput) :
    ({ s with inputs := inp :: rest } : State).input = inp := rfl

theorem State.keyHeld_congr {s t : State} (h : t.input = s.input) (k : Nat) : t.keyHeld k = s.keyHeld k := by
  simp only [State.keyHeld, h]

@[simp] theorem State.peek_setReg (m : Nat) (x : Reg) (b : Byte) : (s.setReg x b).peek m = s.peek m := rfl
@[simp] theorem State.slot_setReg (j : Nat) (x : Reg) (b : Byte) : (s.setReg x b).slot j = s.slot j := rfl
@[simp] theorem State.cell_setReg (p q : Nat) (x : Reg) (b : Byte) : (s.setReg x b).cell p q = s.cell p q := rfl
@[simp] theorem State.input_setReg (x : Reg) (b : Byte) : (s.setReg x b).input = s.input := rfl
@[simp] theorem State.peek_setI (m : Nat) (a : Addr) : (s.setI a).peek m = s.peek m := rfl
@[simp] theorem State.slot_setI (j : Nat) (a : Addr) : (s.setI a).slot j = s.slot j := rfl
@[simp] theorem State.cell_setI (p q : Nat) (a : Addr) : (s.setI a).cell p q = s.cell p q := rfl
@[simp] theorem State.input_setI (a : Addr) : (s.setI a).input = s.input := rfl
@[simp] theorem State.peek_setPc (m : Nat) (a : Addr) : (s.setPc a).peek m = s.peek m := rfl
@[simp] theorem State.slot_setPc (j : Nat) (a : Addr) : (s.setPc a).slot j = s.slot j := rfl
@[simp] theorem State.cell_setPc (p q : Nat) (a : Addr) : (s.setPc a).cell p q = s.cell p q := rfl
@[simp] theorem State.input_setPc (a : Addr) : (s.setPc a).input = s.input := rfl
@[simp] theorem State.peek_advancePc (m : Nat) : s.advancePc.peek m = s.peek m := rfl
@[simp] theorem State.slot_advancePc (j : Nat) : s.advancePc.slot j = s.slot j := rfl
@[simp] theorem State.cell_advancePc (p q : Nat) : s.advancePc.cell p q = s.cell p q := rfl
@[simp] theorem State.input_advancePc : s.advancePc.input = s.input := rfl
@[simp] theorem State.peek_setDt (m : Nat) (b : Byte) : (s.setDt b).peek m = s.peek m := rfl
@[simp] theorem State.slot_setDt (j : Nat) (b : Byte) : (s.setDt b).slot j = s.slot j := rfl
@[simp] theorem State.cell_setDt (p q : Nat) (b : Byte) : (s.setDt b).cell p q = s.cell p q := rfl
@[simp] theorem State.input_setDt (b : Byte) : (s.setDt b).input = s.input := rfl
@[simp] theorem State.peek_setSt (m : Nat) (b : Byte) : (s.setSt b).peek m = s.peek m := rfl
@[simp] theorem State.slot_setSt (j : Nat) (b : Byte) : (s.setSt b).slot j = s.slot j := rfl
@[simp] theorem State.cell_setSt (p q : Nat) (b : Byte) : (s.setSt b).cell p q = s.cell p q := rfl
@[simp] theorem State.input_setSt (b : Byte) : (s.setSt b).input = s.input := rfl
@[simp] theorem State.peek_push (m : Nat) (a : Addr) : (s.push a).peek m = s.peek m := rfl
@[simp] theorem State.cell_push (p q : Nat) (a : Addr) : (s.push a).cell p q = s.cell p q := rfl
@[simp] theorem State.input_push (a : Addr) : (s.push a).input = s.input := rfl
@[simp] theorem State.slot_poke (j : Nat) (a : Nat) (b : Byte) : (s.poke a b).slot j = s.slot j := rfl
@[simp] theorem State.cell_poke (p q : Nat) (a : Nat) (b : Byte) : (s.poke a b).cell p q = s.cell p q := rfl
@[simp] theorem State.input_poke (a : Nat) (b : Byte) : (s.poke a b).input = s.input := rfl
@[simp] theorem State.peek_setFb (m : Nat) (fb : Framebuffer) : (s.setFb fb).peek m = s.peek m := rfl
@[simp] theorem State.slot_setFb (j : Nat) (fb : Framebuffer) : (s.setFb fb).slot j = s.slot j := rfl
@[simp] theorem State.input_setFb (fb : Framebuffer) : (s.setFb fb).input = s.input := rfl
@[simp] theorem State.peek_raiseFault (m : Nat) (k : FaultKind) : (s.raiseFault k).peek m = s.peek m := rfl
@[simp] theorem State.slot_raiseFault (j : Nat) (k : FaultKind) : (s.raiseFault k).slot j = s.slot j := rfl
@[simp] theorem State.cell_raiseFault (p q : Nat) (k : FaultKind) : (s.raiseFault k).cell p q = s.cell p q := rfl
@[simp] theorem State.input_raiseFault (k : FaultKind) : (s.raiseFault k).input = s.input := rfl
@[simp] theorem State.peek_skipIf (m : Nat) (c : Bool) : (s.skipIf c).peek m = s.peek m :=
  State.peek_congr (by simp) (by simp) m
@[simp] theorem State.slot_skipIf (j : Nat) (c : Bool) : (s.skipIf c).slot j = s.slot j := State.slot_congr (by simp) j
@[simp] theorem State.cell_skipIf (p q : Nat) (c : Bool) : (s.skipIf c).cell p q = s.cell p q :=
  State.cell_congr (by simp) p q
@[simp] theorem State.peek_setRegFlag (m : Nat) (x : Reg) (b c : Byte) : (s.setRegFlag x b c).peek m = s.peek m := rfl
@[simp] theorem State.slot_setRegFlag (j : Nat) (x : Reg) (b c : Byte) : (s.setRegFlag x b c).slot j = s.slot j := rfl
@[simp] theorem State.cell_setRegFlag (p q : Nat) (x : Reg) (b c : Byte) :
    (s.setRegFlag x b c).cell p q = s.cell p q := rfl
@[simp] theorem State.cell_setFb (fb : Framebuffer) (p q : Nat) : (s.setFb fb).cell p q = fbCell fb p q := rfl

/-- What a push leaves in each slot (41_control_flow.md R83). -/
theorem State.slot_push (h : s.sp.toNat < 16) (a : Addr) (j : Nat) :
    (s.push a).slot j = if j = s.sp.toNat then some a else s.slot j := by
  simp only [State.slot, State.push_stack, Vector.getElem?_setIfInBounds]
  by_cases hj : s.sp.toNat = j
  · subst hj; simp [h]
  · simp [hj, Ne.symm hj]

end Sys2Proof.Machine
end

