-- ==== Sys2Proof/Laws/Memory.lean ====
section
/-! SUPPORT. The laws of memory: a read after a write, the canonical form that every write keeps, and what the
block transfers do. -/

namespace Sys2Proof.Machine

/-! ### One byte -/

theorem Memory.read_place (font : Vector Byte 80) (a : Nat) (w : Byte) (m : Memory)
    (hm : Memory.read font m a = resetByte font a) (b : Nat) :
    Memory.read font (Memory.place font a w m) b = if b = a then w else Memory.read font m b := by
  unfold Memory.place
  split
  · next h => split
              · next hb => rw [hb, hm, h]
              · rfl
  · rfl

/-- Below its first address an image says nothing, so the byte is the reset byte. -/
theorem Memory.read_of_lt (font : Vector Byte 80) {lo : Nat} {m : Memory} (h : Memory.wfFrom font lo m = true)
    {a : Nat} (ha : a < lo) : Memory.read font m a = resetByte font a := by
  induction m generalizing lo with
  | nil => rfl
  | cons c m ih =>
    obtain ⟨b, u⟩ := c
    simp only [Memory.wfFrom, Bool.and_eq_true, decide_eq_true_eq] at h
    simp only [Memory.read]
    rw [if_neg (by omega)]
    exact ih h.2 (by omega)

/-- A read after a write, on any image in canonical form. -/
theorem Memory.read_write (font : Vector Byte 80) {lo : Nat} {m : Memory} (h : Memory.wfFrom font lo m = true)
    (a b : Nat) (w : Byte) :
    Memory.read font (Memory.write font a w m) b = if b = a then w else Memory.read font m b := by
  induction m generalizing lo with
  | nil => exact Memory.read_place font a w [] rfl b
  | cons c m ih =>
    obtain ⟨d, u⟩ := c
    have h' := h
    simp only [Memory.wfFrom, Bool.and_eq_true, decide_eq_true_eq] at h'
    simp only [Memory.write]
    split
    · next hlt =>
      refine Memory.read_place font a w _ ?_ b
      simp only [Memory.read]
      rw [if_neg (by omega)]
      exact Memory.read_of_lt font h'.2 (by omega)
    · split
      · next heq =>
        subst heq
        rw [Memory.read_place font a w m (Memory.read_of_lt font h'.2 (by omega))]
        simp only [Memory.read]
        split <;> rfl
      · next hne =>
        simp only [Memory.read, ih h'.2]
        by_cases hb : b = d
        · rw [if_pos hb, if_pos hb, if_neg (by omega)]
        · rw [if_neg hb, if_neg hb]

theorem Memory.wfFrom_mono (font : Vector Byte 80) {lo lo' : Nat} (hl : lo' ≤ lo) {m : Memory}
    (h : Memory.wfFrom font lo m = true) : Memory.wfFrom font lo' m = true := by
  cases m with
  | nil => rfl
  | cons c m =>
    obtain ⟨b, u⟩ := c
    simp only [Memory.wfFrom, Bool.and_eq_true, decide_eq_true_eq] at h ⊢
    exact ⟨⟨⟨by omega, h.1.1.2⟩, h.1.2⟩, h.2⟩

theorem Memory.wfFrom_place (font : Vector Byte 80) {a : Nat} (ha : a < Config.memSize) (w : Byte) {m : Memory}
    (h : Memory.wfFrom font (a + 1) m = true) : Memory.wfFrom font a (Memory.place font a w m) = true := by
  unfold Memory.place
  split
  · exact Memory.wfFrom_mono font (by omega) h
  · next hw =>
    simp only [Memory.wfFrom, Bool.and_eq_true, decide_eq_true_eq, bne_iff_ne, ne_eq]
    exact ⟨⟨⟨le_refl a, ha⟩, hw⟩, h⟩

theorem Memory.wfFrom_write (font : Vector Byte 80) {lo a : Nat} (hlo : lo ≤ a) (ha : a < Config.memSize) (w : Byte)
    {m : Memory} (h : Memory.wfFrom font lo m = true) : Memory.wfFrom font lo (Memory.write font a w m) = true := by
  induction m generalizing lo with
  | nil => exact Memory.wfFrom_mono font hlo (Memory.wfFrom_place font ha w rfl)
  | cons c m ih =>
    obtain ⟨d, u⟩ := c
    have h' := h
    simp only [Memory.wfFrom, Bool.and_eq_true, decide_eq_true_eq] at h'
    simp only [Memory.write]
    split
    · next hlt =>
      refine Memory.wfFrom_mono font hlo (Memory.wfFrom_place font ha w ?_)
      simp only [Memory.wfFrom, Bool.and_eq_true, decide_eq_true_eq]
      exact ⟨⟨⟨by omega, h'.1.1.2⟩, h'.1.2⟩, h'.2⟩
    · split
      · next heq =>
        subst heq
        exact Memory.wfFrom_mono font hlo (Memory.wfFrom_place font ha w h'.2)
      · next hne =>
        simp only [Memory.wfFrom, Bool.and_eq_true, decide_eq_true_eq]
        exact ⟨h'.1, ih (by omega) h'.2⟩

/-- A write inside the address space keeps the canonical form. -/
theorem Memory.wf_write (font : Vector Byte 80) {a : Nat} (ha : a < Config.memSize) (w : Byte) {m : Memory}
    (h : Memory.wf font m = true) : Memory.wf font (Memory.write font a w m) = true :=
  Memory.wfFrom_write font (Nat.zero_le a) ha w h

/-- The memory of a state is in canonical form. -/
abbrev State.memWf (s : State) : Prop := Memory.wf s.font s.mem = true

theorem State.reset_memWf : State.reset.memWf := rfl

theorem State.poke_memWf {s : State} (h : s.memWf) {a : Nat} (ha : a < Config.memSize) (b : Byte) :
    (s.poke a b).memWf := Memory.wf_write s.font ha b h

theorem State.peek_poke {s : State} (h : s.memWf) (a c : Nat) (b : Byte) :
    (s.poke a b).peek c = if c = a then b else s.peek c := Memory.read_write s.font h a c b

/-! ### Blocks -/

theorem State.pokeAll_memWf {s : State} (h : s.memWf) {a : Nat} {bs : List Byte} (ha : a + bs.length ≤ Config.memSize) :
    (s.pokeAll a bs).memWf := by
  induction bs generalizing s a with
  | nil => exact h
  | cons b bs ih =>
    simp only [List.length_cons] at ha
    exact ih (State.poke_memWf h (by omega) b) (by omega)

/-- A byte outside the written block reads as before. -/
theorem State.peek_pokeAll_outside {s : State} (h : s.memWf) {a c : Nat} {bs : List Byte}
    (ha : a + bs.length ≤ Config.memSize) (hc : c < a ∨ a + bs.length ≤ c) : (s.pokeAll a bs).peek c = s.peek c := by
  induction bs generalizing s a with
  | nil => rfl
  | cons b bs ih =>
    simp only [List.length_cons] at ha hc
    refine (ih (State.poke_memWf h (by omega) b) (by omega) (by omega)).trans ?_
    rw [State.peek_poke h, if_neg (by omega)]

/-- Byte k of the written block reads as byte k of what was written. -/
theorem State.peek_pokeAll_inside {s : State} (h : s.memWf) {a k : Nat} {bs : List Byte}
    (ha : a + bs.length ≤ Config.memSize) (hk : k < bs.length) : (s.pokeAll a bs).peek (a + k) = bs[k] := by
  induction bs generalizing s a k with
  | nil => exact absurd hk (Nat.not_lt_zero k)
  | cons b bs ih =>
    simp only [List.length_cons] at ha hk
    have hw := State.poke_memWf h (a := a) (by omega) b
    cases k with
    | zero =>
      refine (State.peek_pokeAll_outside hw (by omega) (by omega)).trans ?_
      rw [State.peek_poke h, if_pos (Nat.add_zero a), List.getElem_cons_zero]
    | succ k =>
      have := ih hw (a := a + 1) (k := k) (by omega) (by omega)
      rw [Nat.add_right_comm, Nat.add_assoc] at this
      simpa [State.pokeAll] using this

@[simp] theorem State.length_peekAll (s : State) (a n : Nat) : (s.peekAll a n).length = n := by
  induction n generalizing a with
  | zero => rfl
  | succ n ih => simp [State.peekAll, ih]

theorem State.getElem_peekAll (s : State) (a n k : Nat) (hk : k < (s.peekAll a n).length) :
    (s.peekAll a n)[k] = s.peek (a + k) := by
  induction n generalizing a k with
  | zero => exact absurd hk (Nat.not_lt_zero k)
  | succ n ih =>
    cases k with
    | zero => rfl
    | succ k =>
      simp only [State.peekAll, List.getElem_cons_succ]
      rw [ih, Nat.add_assoc, Nat.add_comm 1 k]

theorem State.peekAll_congr {s t : State} (h : ∀ a, t.peek a = s.peek a) (a n : Nat) : t.peekAll a n = s.peekAll a n := by
  induction n generalizing a with
  | zero => rfl
  | succ n ih => simp [State.peekAll, h, ih]

/-- Reading a block of at least one byte: the bytes, or MemoryOutOfRange when its last address is past 0xFFF. -/
theorem readBlock_eq (s : State) (a n : Nat) : readBlock s a n =
    if n = 0 ∨ a + n ≤ 0x1000 then .ok (s.peekAll a n) else .error .memoryOutOfRange := by
  simp only [readBlock, blockInMemory, Bool.or_eq_true, decide_eq_true_eq]

theorem writeBlock_eq (s : State) (a : Nat) (bs : List Byte) : writeBlock s a bs =
    if bs.length = 0 ∨ a + bs.length ≤ 0x1000 then .ok (s.pokeAll a bs) else .error .memoryOutOfRange := by
  simp only [writeBlock, blockInMemory, Bool.or_eq_true, decide_eq_true_eq]

/-- A block read is its bytes read one by one in ascending order (20_memory.md R44). -/
theorem readBlock_succ (s : State) (a n : Nat) : readBlock s a (n + 1) =
    (memRead s a).bind fun b => (readBlock s (a + 1) n).map fun bs => b :: bs := by
  rw [readBlock_eq, readBlock_eq, memRead]
  by_cases ha : a ≤ 0xFFF
  · by_cases hn : n = 0 ∨ a + 1 + n ≤ 0x1000
    · rw [if_pos ha, if_pos hn, if_pos (by omega)]; rfl
    · rw [if_pos ha, if_neg hn, if_neg (by omega)]; rfl
  · rw [if_neg ha, if_neg (by omega)]; rfl

/-- A block write is its bytes written one by one in ascending order, and a write that meets an address past 0xFFF
writes nothing at all (20_memory.md R44, R45). -/
theorem writeBlock_cons (s : State) (a : Nat) (b : Byte) (bs : List Byte) : writeBlock s a (b :: bs) =
    (memWrite s a b).bind fun t => writeBlock t (a + 1) bs := by
  rw [writeBlock_eq, memWrite]
  simp only [List.length_cons]
  by_cases ha : a ≤ 0xFFF
  · rw [if_pos ha]
    simp only [Except.bind, writeBlock_eq]
    by_cases hn : bs.length = 0 ∨ a + 1 + bs.length ≤ 0x1000
    · rw [if_pos hn, if_pos (by omega)]; rfl
    · rw [if_neg hn, if_neg (by omega)]
  · rw [if_neg ha, if_neg (by omega)]; rfl

/-! ### Registers in a row -/

/-- What a block load leaves in each register: byte `r - k` of the block in registers k..k+len-1. -/
theorem State.reg_setRegs (s : State) (k : Nat) (bs : List Byte) (hk : k + bs.length ≤ 16) (r : Reg) :
    (s.setRegs k bs).reg r = if h : k ≤ r.toNat ∧ r.toNat < k + bs.length then bs[r.toNat - k]'(by omega) else s.reg r := by
  induction bs generalizing s k with
  | nil => rw [dif_neg (by simp only [List.length_nil]; omega)]; rfl
  | cons b bs ih =>
    simp only [List.length_cons] at hk
    have e : (BitVec.ofNat 4 k).toNat = k := by simp only [BitVec.toNat_ofNat]; omega
    change ((s.setReg (BitVec.ofNat 4 k) b).setRegs (k + 1) bs).reg r = _
    rw [ih _ _ (by omega), State.reg_setReg]
    have hr : r = BitVec.ofNat 4 k ↔ r.toNat = k :=
      ⟨fun h => by rw [h, e], fun h => BitVec.eq_of_toNat_eq (by rw [h, e])⟩
    by_cases h1 : k + 1 ≤ r.toNat ∧ r.toNat < k + 1 + bs.length
    · rw [dif_pos h1, dif_pos (by simp only [List.length_cons]; omega)]
      have e2 : r.toNat - k = r.toNat - (k + 1) + 1 := by omega
      simp only [e2, List.getElem_cons_succ]
    · rw [dif_neg h1]
      by_cases h2 : r.toNat = k
      · rw [if_pos (hr.2 h2), dif_pos (by simp only [List.length_cons]; omega)]
        have e2 : r.toNat - k = 0 := by omega
        simp only [e2, List.getElem_cons_zero]
      · rw [if_neg (fun h => h2 (hr.1 h)), dif_neg (by simp only [List.length_cons]; omega)]

@[simp] theorem State.length_regsUpTo (s : State) (x : Reg) : (s.regsUpTo x).length = x.toNat + 1 := by
  simp [State.regsUpTo]

theorem State.getElem_regsUpTo (s : State) (x : Reg) (k : Nat) (h : k < (s.regsUpTo x).length) :
    (s.regsUpTo x)[k] = s.reg (BitVec.ofNat 4 k) := by
  simp [State.regsUpTo]

end Sys2Proof.Machine
end

