-- ==== Sys2Proof/Laws/Screen.lean ====
section
/-! SUPPORT. The laws of the framebuffer: one cell after a flip, which cells a sprite covers, and what drawing a
list of distinct pixels does. -/

namespace Sys2Proof.Machine

@[simp] theorem fbCell_clear (x y : Nat) : fbCell fbClear x y = false := by
  simp [fbCell, fbClear]

/-- There is no cell past the edge. -/
theorem fbCell_outside (fb : Framebuffer) {x y : Nat} (h : ¬(y < 32 ∧ x < 64)) : fbCell fb x y = false := dif_neg h

theorem fbCell_flip (fb : Framebuffer) {x y : Nat} (hx : x < 64) (hy : y < 32) (p q : Nat) :
    fbCell (fbFlip fb x y) p q = if p = x ∧ q = y then !fbCell fb p q else fbCell fb p q := by
  have hxy : y < 32 ∧ x < 64 := ⟨hy, hx⟩
  simp only [fbCell, fbFlip, dif_pos hxy]
  by_cases hpq : q < 32 ∧ p < 64
  · simp only [dif_pos hpq]
    by_cases hq : q = y
    · subst hq
      by_cases hp : p = x
      · subst hp; simp
      · simp [hp, Ne.symm hp]
    · simp [hq, Ne.symm hq]
  · simp only [dif_neg hpq]
    rw [if_neg (by omega)]

/-- The collision flag only ever rises. -/
theorem drawPixels_collision (ps : List (Nat × Nat)) (fb : Framebuffer) (hn : ps.Nodup)
    (hs : ∀ p ∈ ps, p.1 < 64 ∧ p.2 < 32) (col : Bool) :
    (drawPixels ps fb col).2 = (col || ps.any fun p => fbCell fb p.1 p.2) := by
  induction ps generalizing fb col with
  | nil => simp [drawPixels]
  | cons p ps ih =>
    obtain ⟨x, y⟩ := p
    have hxy := hs (x, y) (by simp)
    rw [List.nodup_cons] at hn
    rw [drawPixels, ih _ hn.2 (fun p hp => hs p (by simp [hp])), List.any_cons, Bool.or_assoc]
    congr 2
    rw [Bool.eq_iff_iff, List.any_eq_true, List.any_eq_true]
    refine exists_congr fun p => and_congr_right fun hp => ?_
    rw [fbCell_flip fb hxy.1 hxy.2, if_neg]
    rintro ⟨h1, h2⟩
    exact hn.1 ((Prod.ext h1 h2 : p = (x, y)) ▸ hp)

/-- Drawing distinct pixels flips exactly the cells they name (44_display.md R110 1 and 2). -/
theorem fbCell_drawPixels (ps : List (Nat × Nat)) (fb : Framebuffer) (hn : ps.Nodup)
    (hs : ∀ p ∈ ps, p.1 < 64 ∧ p.2 < 32) (col : Bool) (x y : Nat) :
    fbCell (drawPixels ps fb col).1 x y = (fbCell fb x y ^^ decide ((x, y) ∈ ps)) := by
  induction ps generalizing fb col with
  | nil => simp [drawPixels]
  | cons p ps ih =>
    obtain ⟨a, b⟩ := p
    have hab := hs (a, b) (by simp)
    rw [List.nodup_cons] at hn
    rw [drawPixels, ih _ hn.2 (fun p hp => hs p (by simp [hp])), fbCell_flip fb hab.1 hab.2]
    by_cases h : x = a ∧ y = b
    · obtain ⟨rfl, rfl⟩ := h
      simp [hn.1]
    · rw [if_neg h]
      have : (x, y) ≠ (a, b) := fun e => h (by simpa using e)
      simp [this]

/-! ### Which cells a sprite covers -/

theorem mem_rowColumns (row : Byte) (c : Nat) : c ∈ rowColumns row ↔ c < 8 ∧ row.getLsbD (7 - c) = true := by
  simp [rowColumns]

/-- The set bit at row r, column c of the sprite is the pixel (ox + c, oy + r). -/
theorem mem_spritePixels (ox oy : Nat) (rows : List Byte) (x y : Nat) : (x, y) ∈ spritePixels ox oy rows ↔
    ∃ r c, ∃ h : r < rows.length, c < 8 ∧ rows[r].getLsbD (7 - c) = true ∧ x = ox + c ∧ y = oy + r := by
  induction rows generalizing oy with
  | nil => simp [spritePixels]
  | cons row rows ih =>
    simp only [spritePixels, List.mem_append, List.mem_map, Prod.mk.injEq, mem_rowColumns, ih]
    constructor
    · rintro (⟨c, ⟨hc, hb⟩, rfl, rfl⟩ | ⟨r, c, hr, hc, hb, rfl, rfl⟩)
      · exact ⟨0, c, by simp, hc, by simpa using hb, rfl, by simp⟩
      · exact ⟨r + 1, c, by simpa using hr, hc, by simpa using hb, rfl, by omega⟩
    · rintro ⟨r, c, hr, hc, hb, rfl, rfl⟩
      cases r with
      | zero => exact .inl ⟨c, ⟨hc, by simpa using hb⟩, rfl, by simp⟩
      | succ r => exact .inr ⟨r, c, by simpa using hr, hc, by simpa using hb, rfl, by omega⟩

/-- The cells of one sprite are distinct (44_display.md R109): without per-pixel wrap each bit has its own. -/
theorem nodup_spritePixels (ox oy : Nat) (rows : List Byte) : (spritePixels ox oy rows).Nodup := by
  induction rows generalizing oy with
  | nil => simp [spritePixels]
  | cons row rows ih =>
    rw [spritePixels, List.nodup_append]
    refine ⟨?_, ih _, ?_⟩
    · refine List.Nodup.map (fun c d h => by simpa using h) ?_
      exact List.Nodup.filter _ List.nodup_range
    · rintro ⟨x, y⟩ h1 ⟨x', y'⟩ h2 e
      rw [← e, mem_spritePixels] at h2
      obtain ⟨r, c, -, -, -, -, hy⟩ := h2
      simp only [List.mem_map, Prod.mk.injEq] at h1
      obtain ⟨c', -, -, rfl⟩ := h1
      omega

theorem pixelsOnScreen_iff (ps : List (Nat × Nat)) : pixelsOnScreen ps = true ↔ ∀ p ∈ ps, p.1 < 64 ∧ p.2 < 32 := by
  simp only [pixelsOnScreen, List.all_eq_true, Bool.and_eq_true, decide_eq_true_eq]
  exact forall₂_congr fun _ _ => by omega

end Sys2Proof.Machine
end

