-- ==== Sys2Proof/Laws/Step.lean ====
section
/-! SUPPORT. What one step can do, said once, and what the shared operations of the cycle driver do. -/

namespace Sys2Proof.Machine

/-- The end of a fault-free cycle (40_cycle_driver.md R77). -/
theorem State.endCycle_running {s : State} (h : s.fault = none) : s.endCycle =
    { s with dt := tick s.dt, st := tick s.st, inputs := s.inputs.tail, cycle := s.cycle + 1 } := by
  simp [State.endCycle, h]

/-- A faulted cycle commits nothing more (R79). -/
theorem State.endCycle_faulted {s : State} (h : s.fault ≠ none) : s.endCycle = s := by
  cases hf : s.fault with
  | none => exact absurd hf h
  | some k => simp [State.endCycle, hf]

@[simp] theorem State.endCycle_fault (s : State) : s.endCycle.fault = s.fault := by
  by_cases h : s.fault = none
  · rw [State.endCycle_running h]
  · rw [State.endCycle_faulted h]

/-- A tick takes one away and stops at 0. -/
theorem toNat_tick (b : Byte) : (tick b).toNat = b.toNat - 1 := by
  unfold tick
  split
  · next h => simp [h]
  · next h =>
    have hb : b.toNat ≠ 0 := fun e => h (BitVec.eq_of_toNat_eq e)
    have := b.isLt
    rw [BitVec.toNat_sub, BitVec.toNat_ofNat]
    omega

/-- A handler's outcome is always a next state: its own, or the start state with FAULT set. -/
theorem settle_cases (s : State) (r : Except FaultKind State) :
    (∃ t, r = .ok t ∧ settle s r = .next t) ∨ ∃ k, r = .error k ∧ settle s r = .next (s.raiseFault k) := by
  cases r with
  | ok t => exact .inl ⟨t, rfl, rfl⟩
  | error k => exact .inr ⟨k, rfl, rfl⟩

theorem fetchable_iff (s : State) : s.fetchable = true ↔ 0x200 ≤ s.pc.toNat ∧ s.pc.toNat + 1 ≤ 0xFFF := by
  simp only [State.fetchable, Bool.and_eq_true, decide_eq_true_eq]

/-- The three ways a step answers a next state. -/
theorem step_cases {s t : State} (h : step s = .next t) :
    (s.fault ≠ none ∧ t = s) ∨
    (s.fault = none ∧ s.fetchable = false ∧ t = s.raiseFault .fetchOutOfRange) ∨
    (s.fault = none ∧ s.fetchable = true ∧ ∃ u, execDecoded (decode s.fetchWord) s = .next u ∧ t = u.endCycle) := by
  unfold step at h
  cases hf : s.fault with
  | some k =>
    simp only [hf, Option.isSome_some, if_true] at h
    cases h
    exact .inl ⟨by simp, rfl⟩
  | none =>
    simp only [hf, Option.isSome_none, Bool.false_eq_true, if_false] at h
    cases hp : s.fetchable with
    | false =>
      simp only [hp, Bool.false_eq_true, if_false] at h
      cases h
      exact .inr (.inl ⟨rfl, rfl, rfl⟩)
    | true =>
      simp only [hp, if_true] at h
      refine .inr (.inr ⟨rfl, rfl, ?_⟩)
      cases hx : execDecoded (decode s.fetchWord) s with
      | next u => rw [hx] at h; cases h; exact ⟨u, rfl, rfl⟩
      | fault r => rw [hx] at h; cases h
      | refused r => rw [hx] at h; cases h

/-- What a step of a running core at a fetchable PC is. -/
theorem step_running {s : State} (hf : s.fault = none) (hp : s.fetchable = true) :
    step s = endOutcome (execDecoded (decode s.fetchWord) s) := by
  simp [step, hf, hp]

/-- What the cycle port answers: the step on the given input, the host's queue put back (40_cycle_driver.md R72). -/
theorem cycle_of_step {keys : Keys} {rnd : Byte} {s t : State} (h : step { s with inputs := [⟨keys, rnd⟩] } = .next t) :
    cycle keys rnd s = .next { t with inputs := s.inputs } := by
  simp only [cycle, h]

/-! ### The frame of the shared updates (00_scope.md R14) -/

theorem ChangesOnly.rfl (regs : Set Reg) (parts : Set Part) (s : State) : ChangesOnly regs parts s s := by
  simp [ChangesOnly]

theorem ChangesOnly.trans {regs : Set Reg} {parts : Set Part} {s t u : State} (h1 : ChangesOnly regs parts s t)
    (h2 : ChangesOnly regs parts t u) : ChangesOnly regs parts s u := by
  obtain ⟨a1, a2, a3, a4, a5, a6, a7, a8, a9, a10, a11⟩ := h1
  obtain ⟨b1, b2, b3, b4, b5, b6, b7, b8, b9, b10, b11⟩ := h2
  exact ⟨fun r hr => (b1 r hr).trans (a1 r hr), fun h => (b2 h).trans (a2 h),
    fun h a => (b3 h a).trans (a3 h a),
    fun h => ⟨(b4 h).1.trans (a4 h).1, fun j => ((b4 h).2 j).trans ((a4 h).2 j)⟩,
    fun h => (b5 h).trans (a5 h), fun h => (b6 h).trans (a6 h), fun h x y => (b7 h x y).trans (a7 h x y),
    b8.trans a8, b9.trans a9, b10.trans a10, b11.trans a11⟩

theorem ChangesOnly.setPc (regs : Set Reg) (parts : Set Part) (s : State) (a : Addr) :
    ChangesOnly regs parts s (s.setPc a) := by simp [ChangesOnly]

theorem ChangesOnly.advancePc (regs : Set Reg) (parts : Set Part) (s : State) :
    ChangesOnly regs parts s s.advancePc := by simp [ChangesOnly]

theorem ChangesOnly.skipIf (regs : Set Reg) (parts : Set Part) (s : State) (c : Bool) :
    ChangesOnly regs parts s (s.skipIf c) := by simp [ChangesOnly]

theorem ChangesOnly.setReg {regs : Set Reg} (parts : Set Part) (s : State) {x : Reg} (hx : x ∈ regs) (b : Byte) :
    ChangesOnly regs parts s (s.setReg x b) := by
  refine ⟨fun r hr => State.reg_setReg_of_ne s (fun e => hr (by rw [e]; exact hx)) b, ?_⟩
  simp

theorem ChangesOnly.setRegFlag {regs : Set Reg} (parts : Set Part) (s : State) {x : Reg} (hx : x ∈ regs)
    (hf : vf ∈ regs) (b c : Byte) : ChangesOnly regs parts s (s.setRegFlag x b c) :=
  (ChangesOnly.setReg parts s hx b).trans (ChangesOnly.setReg parts _ hf c)

theorem ChangesOnly.setRegs {regs : Set Reg} (parts : Set Part) (s : State) {k : Nat} {bs : List Byte}
    (h : ∀ j, k ≤ j → j < k + bs.length → BitVec.ofNat 4 j ∈ regs) : ChangesOnly regs parts s (s.setRegs k bs) := by
  induction bs generalizing s k with
  | nil => exact ChangesOnly.rfl regs parts s
  | cons b bs ih =>
    simp only [List.length_cons] at h
    exact (ChangesOnly.setReg parts s (h k (le_refl k) (by omega)) b).trans
      (ih _ fun j h1 h2 => h j (by omega) (by omega))

theorem ChangesOnly.pokeAll (regs : Set Reg) {parts : Set Part} (hp : Part.memory ∈ parts) (s : State) (a : Nat)
    (bs : List Byte) : ChangesOnly regs parts s (s.pokeAll a bs) := by
  refine ⟨fun r _ => State.reg_pokeAll s r a bs, fun _ => State.pokeAll_i s a bs, fun h => absurd hp h,
    fun _ => ⟨State.pokeAll_sp s a bs, State.slot_congr (State.pokeAll_stack s a bs)⟩, fun _ => State.pokeAll_dt s a bs,
    fun _ => State.pokeAll_st s a bs, fun _ => State.cell_congr (State.pokeAll_fb s a bs), ?_⟩
  simp

end Sys2Proof.Machine
end

