-- ==== Sys2Proof/Tests/Slice0.lean ====
section
/-! SUPPORT. The model's own tests: checks of WellFormed, words written out from 30_encoding.md R65, vectors of
95_test_vectors.md run for one step, and for each obligation with hypotheses a state that meets them. Every expected
value is the spec's. -/

namespace Sys2Proof.Tests

open Sys2Proof.Machine Sys2Proof.Claims

/-! ## Building small states -/

/-- The reset state with the word `w` at 0x200. -/
def start (w : Nat) : State := State.reset.withFetchWord 16 w

/-- `s` with these registers. -/
def regs (l : List (Nat × Nat)) (s : State) : State :=
  l.foldl (fun t p => t.setReg (BitVec.ofNat 4 p.1) (BitVec.ofNat 8 p.2)) s

/-- `s` with these bytes from `a` on. -/
def bytes (a : Nat) (l : List Nat) (s : State) : State := s.pokeAll a (l.map (BitVec.ofNat 8))

/-- `s` with these keys held in the next cycle, and this random byte. -/
def input (keys : List Nat) (rnd : Nat) (s : State) : State :=
  { s with inputs := [⟨Vector.ofFn fun k : Fin 16 => keys.contains k.val, BitVec.ofNat 8 rnd⟩] }

/-- What `f` shows of the state after one step. -/
def after {α : Type} (s : State) (f : State → α) : Option α :=
  match step s with
  | .next t => some (f t)
  | .fault _ => none
  | .refused _ => none

/-! ## WellFormed -/

theorem test_wf_refuses_sixteen_rows : (Instr.drw 0#4 0#4 16).wf = false := by decide
theorem test_wf_accepts_fifteen_rows : (Instr.drw 0xF#4 0xF#4 15).wf = true := by decide
theorem test_image_of_3585_bytes_refused : imageFits (List.replicate 3585 0#8) = false := by
  rw [imageFits, List.length_replicate]; decide
theorem test_image_of_3584_bytes_accepted : imageFits (List.replicate 3584 0#8) = true := by
  rw [imageFits, List.length_replicate]; decide

/-! ## Decoding: words written out from R65 -/

theorem test_decode_family0 :
    decode 0b0000000011100000#16 = .assigned .cls ∧ decode 0b0000000011101110#16 = .assigned .ret ∧
    decode 0x0120#16 = .assigned .cls ∧ decode 0x0FFE#16 = .assigned .ret ∧ decode 0x0005#16 = .noOp := by decide

theorem test_decode_jumps :
    decode 0b0001001000110100#16 = .assigned (.jp 0x234#12) ∧
    decode 0b0010001100000000#16 = .assigned (.call 0x300#12) ∧
    decode 0b1011001100000000#16 = .assigned (.jpV0 0x300#12) := by decide

theorem test_decode_skips :
    decode 0b0011101001000010#16 = .assigned (.seImm 0xA#4 0x42#8) ∧
    decode 0b0100101001000010#16 = .assigned (.sneImm 0xA#4 0x42#8) ∧
    decode 0b0101000100100000#16 = .assigned (.seReg 1#4 2#4) ∧
    decode 0b1001000100100000#16 = .assigned (.sneReg 1#4 2#4) ∧
    decode 0x5121#16 = .assigned (.seReg 1#4 2#4) ∧ decode 0x912F#16 = .assigned (.sneReg 1#4 2#4) := by decide

theorem test_decode_loads_and_logic :
    decode 0b0110000000000101#16 = .assigned (.ldImm 0#4 0x05#8) ∧
    decode 0b0111001000100000#16 = .assigned (.addImm 2#4 0x20#8) ∧
    decode 0b1000001000010000#16 = .assigned (.ldReg 2#4 1#4) ∧
    decode 0b1000001000010001#16 = .assigned (.orReg 2#4 1#4) ∧
    decode 0b1000001000010010#16 = .assigned (.andReg 2#4 1#4) ∧
    decode 0b1000001000010011#16 = .assigned (.xorReg 2#4 1#4) := by decide

theorem test_decode_arithmetic :
    decode 0b1000001000010100#16 = .assigned (.addReg 2#4 1#4) ∧
    decode 0b1000001000010101#16 = .assigned (.sub 2#4 1#4) ∧
    decode 0b1000001000000110#16 = .assigned (.shr 2#4) ∧
    decode 0b1000001000010111#16 = .assigned (.subn 2#4 1#4) ∧
    decode 0b1000001000001110#16 = .assigned (.shl 2#4) ∧
    decode 0b1100001000001111#16 = .assigned (.rnd 2#4 0x0F#8) ∧
    decode 0x8008#16 = .noOp ∧ decode 0x801F#16 = .noOp := by decide

theorem test_decode_index_and_memory :
    decode 0b1010001100000000#16 = .assigned (.ldI 0x300#12) ∧
    decode 0b1111001000011110#16 = .assigned (.addI 2#4) ∧
    decode 0b1111001000101001#16 = .assigned (.ldF 2#4) ∧
    decode 0b1111001000110011#16 = .assigned (.ldB 2#4) ∧
    decode 0b1111001001010101#16 = .assigned (.stRegs 2#4) ∧
    decode 0b1111001001100101#16 = .assigned (.ldRegs 2#4) := by decide

theorem test_decode_display :
    decode 0b1101000000010010#16 = .assigned (.drw 0#4 1#4 2) ∧
    decode 0xDEF0#16 = .assigned (.drw 0xE#4 0xF#4 0) := by decide

theorem test_decode_keys_and_timers :
    decode 0b1110001110011110#16 = .assigned (.skp 3#4) ∧ decode 0b1110001110100001#16 = .assigned (.sknp 3#4) ∧
    decode 0b1111001100000111#16 = .assigned (.ldVxDt 3#4) ∧
    decode 0b1111001100001010#16 = .assigned (.ldVxK 3#4) ∧
    decode 0b1111001100010101#16 = .assigned (.ldDtVx 3#4) ∧
    decode 0b1111001100011000#16 = .assigned (.ldStVx 3#4) ∧
    decode 0xE30E#16 = .assigned (.skp 3#4) ∧ decode 0xE3F1#16 = .assigned (.sknp 3#4) ∧
    decode 0xE09F#16 = .noOp ∧ decode 0xF0FF#16 = .noOp := by decide

theorem test_encode_words :
    encode .cls = 0x00E0#16 ∧ encode (.call 0x300#12) = 0x2300#16 ∧ encode (.seReg 1#4 2#4) = 0x5120#16 ∧
    encode (.shl 0xF#4) = 0x8F0E#16 ∧ encode (.drw 0xA#4 0xB#4 15) = 0xDABF#16 ∧ encode (.sknp 5#4) = 0xE5A1#16 ∧
    encode (.ldRegs 2#4) = 0xF265#16 := by decide

/-- No two rows of the opcode map share a word: where both masks look, their patterns differ (R65). -/
theorem test_opcode_rows_disjoint :
    opcodeRows.Pairwise (fun r q => r.pattern &&& q.mask ≠ q.pattern &&& r.mask) := by decide

/-- Bytes come high first (20_memory.md R43), and one byte is no instruction. -/
theorem test_decode_bytes :
    decodeBytes [0x60#8, 0x05#8, 0xAA#8] = .ok (.assigned (.ldImm 0#4 5#8), [0xAA#8]) ∧
    decodeBytes [0x60#8] = .error .truncated := ⟨rfl, rfl⟩

theorem test_table_word : decodeTableWord 16 0xA300 = some (.ldI 0x300#12) ∧ decodeTableWord 16 0x8008 = none := by
  decide

/-! ## One step (95_test_vectors.md; the vector is named) -/

/-- V100: the reset state runs CLS from zero-filled memory. -/
theorem test_reset_runs_cls : after State.reset (fun t => (t.pc, t.fault)) = some (0x202#16, none) := by decide

/-- V5, V7: a no-op ticks the timers and touches no register. -/
theorem test_noop : after (regs [(0, 1), (15, 9)] { start 0x8008 with dt := 3#8, st := 1#8 })
    (fun t => (t.pc, t.dt, t.st, t.reg 0#4, t.reg 0xF#4)) = some (0x202#16, 2#8, 0#8, 1#8, 9#8) := by decide

/-- V1: the last fetchable address. -/
theorem test_fetch_at_ffe : after (bytes 0xFFE [0x60, 0x01] { State.reset with pc := 0xFFE#16 })
    (fun t => (t.reg 0#4, t.pc, t.fault)) = some (1#8, 0x1000#16, none) := by decide

/-- V2, V3: outside the fetch region; the timers do not tick. -/
theorem test_fetch_at_fff : after { State.reset with pc := 0xFFF#16, dt := 4#8 }
    (fun t => (t.fault, t.pc, t.dt)) = some (some .fetchOutOfRange, 0xFFF#16, 4#8) := by decide
theorem test_fetch_at_1fe : after { State.reset with pc := 0x1FE#16, dt := 4#8 }
    (fun t => (t.fault, t.pc, t.dt)) = some (some .fetchOutOfRange, 0x1FE#16, 4#8) := by decide

/-- V4: a faulted core does nothing. -/
theorem test_faulted_core : after { State.reset with fault := some .stackOverflow, dt := 4#8 }
    (fun t => (t.fault, t.pc, t.dt)) = some (some .stackOverflow, 0x200#16, 4#8) := by decide

/-- V10, V11, V12. -/
theorem test_ret : after { start 0x0FFE with sp := 2#8, stack := (Vector.replicate 16 0#16).set 1 0x30A#16 }
    (fun t => (t.sp, t.pc, t.slot 1)) = some (1#8, 0x30A#16, some 0x30A#16) := by decide
theorem test_ret_underflow : after (start 0x00EE) (fun t => (t.fault, t.pc, t.sp)) =
    some (some .stackUnderflow, 0x200#16, 0#8) := by decide

/-- V14. -/
theorem test_jp : after (start 0x1FFF) (fun t => (t.pc, t.fault)) = some (0xFFF#16, none) := by decide

/-- V16, V17. -/
theorem test_call_sixteenth : after { start 0x2400 with sp := 15#8 }
    (fun t => (t.slot 15, t.sp, t.pc, t.fault)) = some (some 0x202#16, 16#8, 0x400#16, none) := by decide
theorem test_call_overflow : after { start 0x2400 with sp := 16#8 }
    (fun t => (t.fault, t.pc, t.sp)) = some (some .stackOverflow, 0x200#16, 16#8) := by decide

/-- V18, V19, V20, V21, V22. -/
theorem test_se_imm_taken : after (regs [(10, 0x42)] (start 0x3A42)) State.pc = some 0x204#16 := by decide
theorem test_se_imm_not_taken : after (regs [(10, 0x43)] (start 0x3A42)) State.pc = some 0x202#16 := by decide
theorem test_sne_imm : after (regs [(10, 0x43)] (start 0x4A42)) State.pc = some 0x204#16 := by decide
theorem test_se_reg : after (regs [(1, 9), (2, 9)] (start 0x5121)) State.pc = some 0x204#16 := by decide
theorem test_sne_reg : after (regs [(1, 9), (2, 9)] (start 0x912F)) State.pc = some 0x202#16 := by decide

/-- V23: the sum is not masked. -/
theorem test_jp_v0 : after (regs [(0, 0xFF)] (start 0xBFFF)) State.pc = some 0x10FE#16 := by decide

/-- W5 and R90. -/
theorem test_ld_imm : after (start 0x6005) (fun t => (t.reg 0#4, t.pc)) = some (5#8, 0x202#16) := by decide

/-- V30. -/
theorem test_add_imm : after (regs [(0, 1), (15, 7)] (start 0x70FF)) (fun t => (t.reg 0#4, t.reg 0xF#4)) =
    some (0#8, 7#8) := by decide

/-- R92 to R95 examples. -/
theorem test_ld_reg : after (regs [(1, 0x2C)] (start 0x8210)) (State.reg · 2#4) = some 0x2C#8 := by decide
theorem test_or : after (regs [(0, 1), (1, 2), (15, 9)] (start 0x8011)) (fun t => (t.reg 0#4, t.reg 0xF#4)) =
    some (3#8, 9#8) := by decide
theorem test_and : after (regs [(0, 0x3C), (1, 0x0F), (15, 9)] (start 0x8012)) (fun t => (t.reg 0#4, t.reg 0xF#4)) =
    some (0x0C#8, 9#8) := by decide
theorem test_xor : after (regs [(0, 0xFF), (1, 0x0F), (15, 9)] (start 0x8013)) (fun t => (t.reg 0#4, t.reg 0xF#4)) =
    some (0xF0#8, 9#8) := by decide

/-- W1, V33. -/
theorem test_add_carry : after (regs [(0, 200), (1, 100)] (start 0x8014)) (fun t => (t.reg 0#4, t.reg 0xF#4)) =
    some (44#8, 1#8) := by decide
theorem test_add_into_vf : after (regs [(15, 200), (1, 100)] (start 0x8F14)) (State.reg · 0xF#4) = some 1#8 := by
  decide

/-- W2, V34. -/
theorem test_sub_borrow : after (regs [(0, 5), (1, 10)] (start 0x8015)) (fun t => (t.reg 0#4, t.reg 0xF#4)) =
    some (251#8, 0#8) := by decide
theorem test_sub_equal : after (regs [(0, 7), (1, 7), (15, 1)] (start 0x8015)) (fun t => (t.reg 0#4, t.reg 0xF#4)) =
    some (0#8, 0#8) := by decide

/-- V37, V40. -/
theorem test_shr_vf : after (regs [(15, 3)] (start 0x8F06)) (State.reg · 0xF#4) = some 1#8 := by decide
theorem test_shr_ignores_y : after (regs [(1, 0x10), (5, 0xFF)] (start 0x8156))
    (fun t => (t.reg 1#4, t.reg 0xF#4, t.reg 5#4)) = some (8#8, 0#8, 0xFF#8) := by decide

/-- V41, V42. -/
theorem test_subn_equal : after (regs [(0, 7), (1, 7), (15, 1)] (start 0x8017)) (fun t => (t.reg 0#4, t.reg 0xF#4)) =
    some (0#8, 0#8) := by decide
theorem test_subn : after (regs [(0, 5), (1, 10)] (start 0x8017)) (fun t => (t.reg 0#4, t.reg 0xF#4)) =
    some (5#8, 1#8) := by decide

/-- V38, V39. -/
theorem test_shl_vf : after (regs [(15, 0x40)] (start 0x8F0E)) (State.reg · 0xF#4) = some 0#8 := by decide
theorem test_shl : after (regs [(0, 0x80)] (start 0x800E)) (fun t => (t.reg 0#4, t.reg 0xF#4)) =
    some (0#8, 1#8) := by decide

/-- V46, V48. -/
theorem test_rnd_masked_off : after (input [] 0xFF (regs [(3, 9)] (start 0xC300))) (State.reg · 3#4) = some 0#8 := by
  decide
theorem test_rnd : after (input [] 0xA7 (start 0xC20F)) (State.reg · 2#4) = some 7#8 := by decide

/-- R102; V50, V51; V52, V54. -/
theorem test_ld_i : after (start 0xA300) State.i = some 0x300#16 := by decide
theorem test_add_i_wraps : after (regs [(0, 1)] { start 0xF01E with i := 0xFFFF#16 })
    (fun t => (t.i, t.reg 0xF#4)) = some (0#16, 0#8) := by decide
theorem test_add_i_past_memory : after (regs [(0, 3)] { start 0xF01E with i := 0xFFE#16 })
    (fun t => (t.i, t.fault)) = some (0x1001#16, none) := by decide
theorem test_ld_f_whole_byte : after (regs [(0, 0xFF)] (start 0xF029)) State.i = some 0x54B#16 := by decide
theorem test_ld_f_last_glyph : after (regs [(0, 0x0F)] (start 0xF029)) State.i = some 0x09B#16 := by decide

/-- V55, V56. -/
theorem test_bcd_at_top : after (regs [(0, 255)] { start 0xF033 with i := 0xFFD#16 })
    (fun t => (t.peekAll 0xFFD 3, t.fault)) = some ([2#8, 5#8, 5#8], none) := by decide
theorem test_bcd_past_top : after (regs [(0, 255)] { start 0xF033 with i := 0xFFE#16 })
    (fun t => (t.fault, t.pc, t.peekAll 0xFFE 2)) = some (some .memoryOutOfRange, 0x200#16, [0#8, 0#8]) := by decide

/-- V58, V59. -/
theorem test_store_all_at_top : after (regs [(0, 1), (15, 0xAB)] { start 0xFF55 with i := 0xFF0#16 })
    (fun t => (t.peek 0xFF0, t.peek 0xFF1, t.peek 0xFFF, t.i)) = some (1#8, 0#8, 0xAB#8, 0xFF0#16) := by decide
theorem test_store_past_top : after (regs [(15, 0xAB)] { start 0xFF55 with i := 0xFF1#16 })
    (fun t => (t.fault, t.peek 0xFFF)) = some (some .memoryOutOfRange, 0#8) := by decide

/-- V60, V61. -/
theorem test_load_all : after (bytes 0x300 [0x11] (bytes 0x30F [0xEE] { start 0xFF65 with i := 0x300#16 }))
    (fun t => (t.reg 0#4, t.reg 1#4, t.reg 0xF#4, t.i)) = some (0x11#8, 0#8, 0xEE#8, 0x300#16) := by decide
theorem test_load_one : after (bytes 0x300 [0x11, 0x22] { start 0xF065 with i := 0x300#16 })
    (fun t => (t.reg 0#4, t.reg 1#4)) = some (0x11#8, 0#8) := by decide

/-- V13. -/
theorem test_cls : after { start 0x0120 with fb := fbFlip fbClear 1 1 }
    (fun t => (t.cell 1 1, t.pc)) = some (false, 0x202#16) := by decide

/-- V72, V78. -/
theorem test_drw_off_edge : after (bytes 0x300 [0xFF] (regs [(0, 60), (15, 7)] { start 0xD011 with i := 0x300#16 }))
    (fun t => (t.fault, t.cell 60 0, t.reg 0xF#4)) = some (some .spriteOutOfRange, false, 7#8) := by decide
theorem test_drw_collision :
    after (bytes 0x300 [0xC0] { start 0xD011 with i := 0x300#16, fb := fbFlip fbClear 1 0 })
      (fun t => (t.cell 0 0, t.cell 1 0, t.cell 2 0, t.reg 0xF#4)) = some (true, false, false, 1#8) := by decide

/-- V80, V82. -/
theorem test_skp_held : after (input [3] 0 (regs [(0, 3)] (start 0xE09E))) State.pc = some 0x204#16 := by decide
theorem test_skp_no_such_key : after (input [0, 15] 0 (regs [(0, 16)] (start 0xE09E))) (fun t => (t.fault, t.pc)) =
    some (some .keyIndexOutOfRange, 0x200#16) := by decide

/-- V83, V84. -/
theorem test_sknp_held : after (input [3] 0 (regs [(0, 3)] (start 0xE0A1))) State.pc = some 0x202#16 := by decide
theorem test_sknp_free : after (input [] 0 (regs [(0, 3)] (start 0xE0F1))) State.pc = some 0x204#16 := by decide

/-- V85. -/
theorem test_ld_dt : after { start 0xF307 with dt := 7#8 } (fun t => (t.reg 3#4, t.dt)) = some (7#8, 6#8) := by decide

/-- W9, V87. -/
theorem test_key_wait : after (input [] 0 { start 0xF00A with dt := 3#8 }) (fun t => (t.pc, t.dt)) =
    some (0x200#16, 2#8) := by decide
theorem test_key_lowest : after (input [9, 2] 0 (start 0xF00A)) (fun t => (t.reg 0#4, t.pc)) =
    some (2#8, 0x202#16) := by decide

/-- V90, V93. -/
theorem test_set_dt : after (regs [(0, 1)] (start 0xF015)) State.dt = some 0#8 := by decide
theorem test_set_st : after (regs [(1, 0x20)] (start 0xF118)) State.st = some 0x1F#8 := by decide

/-- V99: a load over an earlier load. -/
theorem test_load_over_load : (load [0x12#8, 0x00#8] (bytes 0x200 [0xAA, 0xBB, 0xCC, 0xDD] State.reset)).toOption.map
    (fun t => t.peekAll 0x200 4) = some [0x12#8, 0x00#8, 0xCC#8, 0xDD#8] := by decide

/-! ## Witnesses: for each obligation with hypotheses, states that meet them, at the edges of their ranges -/

theorem test_witness_DecodeOfEncodeIsTheInstruction :
    (Instr.drw 0#4 0xF#4 0).wf = true ∧ (Instr.drw 0xF#4 0#4 15).wf = true ∧ (Instr.jp 0xFFF#12).wf = true := by decide

/-- Every row of the opcode map has a word: its pattern. -/
theorem test_witness_RowDecodes : ∀ r ∈ opcodeRows, r.pattern &&& r.mask = r.pattern := by decide

theorem test_witness_EveryWordDecodesByTheOpcodeMap :
    (⟨"8xy4", 0xF00F, 0x8004⟩ : OpcodeRow) ∈ opcodeRows ∧ 0x8F14#16 &&& 0xF00F#16 = 0x8004#16 ∧
    (∀ r ∈ opcodeRows, 0xF0FF#16 &&& r.mask ≠ r.pattern) := by decide

theorem test_witness_OnlyIgnoredBitsAreDropped :
    Instr.ret.wf = true ∧ (0x0AB0#16 &&& Instr.ret.ignoredBits) = 0x0AB0#16 ∧
    decode (encode .ret ^^^ 0x0AB0#16) = .assigned .ret := by decide

/-- Both ends of the fetch region; a running core there with a decodable word. -/
theorem test_witness_StepRunsTheDecodedInstruction :
    ((start 0x1234).fault = none ∧ MayFetch (start 0x1234) ∧ decode (wordAt (start 0x1234)) = .assigned (.jp 0x234#12)) ∧
    (let s := bytes 0xFFE [0x60, 0x01] { State.reset with pc := 0xFFE#16 }
     s.fault = none ∧ MayFetch s ∧ decode (wordAt s) = .assigned (.ldImm 0#4 1#8)) ∧
    State.reset.fault = none ∧ ({ State.reset with fault := some .fetchOutOfRange }).fault ≠ none := by
  unfold MayFetch; decide

theorem test_witness_UnassignedWordOnlyAdvances :
    (start 0xF0FF).fault = none ∧ MayFetch (start 0xF0FF) ∧ decode (wordAt (start 0xF0FF)) = .noOp := by
  unfold MayFetch; decide

/-- One below and one above the region, and the largest PC. -/
theorem test_witness_FetchOutsideProgramRegionFaults :
    State.reset.fault = none ∧ ({ State.reset with pc := 0x1FF#16 }).pc.toNat < 0x200 ∧
    0xFFF < ({ State.reset with pc := 0xFFF#16 }).pc.toNat + 1 ∧
    0xFFF < ({ State.reset with pc := 0xFFFF#16 }).pc.toNat + 1 := by decide

theorem test_witness_FaultedCoreIsStopped :
    ({ State.reset with fault := some .stackOverflow }).fault ≠ none ∧
    (load [0x12#8] { State.reset with fault := some .stackOverflow }).toOption.isSome = true := by decide

/-- A running core whose step raises a fault. -/
theorem test_witness_FaultingCycleCommitsNothing :
    (start 0x00EE).fault = none ∧ ∃ t, step (start 0x00EE) = .next t ∧ t.fault ≠ none := by
  refine ⟨by decide, _, rfl, by decide⟩

/-- Each clause of the priority, at the first value that faults. -/
theorem test_witness_FaultRaisedExactlyByPriority :
    ¬ MayFetch { State.reset with pc := 0x1FF#16 } ∧ MayFetch (start 0x2400) ∧
    OwnFault { start 0x2400 with sp := 16#8 } (.call 0x400#12) .stackOverflow ∧
    OwnFault (start 0x00EE) .ret .stackUnderflow ∧
    OwnFault { start 0xF033 with i := 0xFFE#16 } (.ldB 0#4) .memoryOutOfRange ∧
    OwnFault { start 0xFF55 with i := 0xFF1#16 } (.stRegs 0xF#4) .memoryOutOfRange ∧
    OwnFault { start 0xF065 with i := 0x1000#16 } (.ldRegs 0#4) .memoryOutOfRange ∧
    OwnFault { start 0xD013 with i := 0xFFE#16 } (.drw 0#4 1#4 3) .memoryOutOfRange ∧
    OwnFault (bytes 0x300 [0x01] (regs [(0, 57)] { start 0xD011 with i := 0x300#16 })) (.drw 0#4 1#4 1)
      .spriteOutOfRange ∧
    OwnFault (regs [(0, 16)] (start 0xE09E)) (.skp 0#4) .keyIndexOutOfRange ∧
    OwnFault (regs [(0, 255)] (start 0xE0A1)) (.sknp 0#4) .keyIndexOutOfRange := by
  refine ⟨by unfold MayFetch; decide, by unfold MayFetch; decide, .call _ (by decide), .ret (by decide),
    .bcd _ (by decide), .store _ (by decide), .load _ (by decide), .drawMemory _ _ _ (by decide) (by decide),
    .drawScreen _ _ _ 64 0 (by decide) ⟨0, 7, by decide⟩ (by decide), .skp _ (by decide), .sknp _ (by decide)⟩

theorem test_witness_TimersTickInEveryFaultFreeCycle :
    (∃ t, step (start 0xF015) = .next t ∧ t.fault = none) ∧ decode (wordAt (start 0xF015)) = .assigned (.ldDtVx 0#4) ∧
    (∃ t, step (start 0xF118) = .next t ∧ t.fault = none) ∧ decode (wordAt (start 0xF118)) = .assigned (.ldStVx 1#4) ∧
    (∃ t, step (start 0x8008) = .next t ∧ t.fault = none) ∧ decode (wordAt (start 0x8008)) = .noOp := by
  refine ⟨⟨_, rfl, ?_⟩, ?_, ⟨_, rfl, ?_⟩, ?_, ⟨_, rfl, ?_⟩, ?_⟩ <;> decide

theorem test_witness_StepAlwaysAnswersWithLegalStackPointer :
    State.reset.sp.toNat ≤ 16 ∧ ({ State.reset with sp := 16#8 }).sp.toNat ≤ 16 := by decide

theorem test_witness_RetAboveSixteenStops : 16 < ({ State.reset with sp := 17#8 }).sp.toNat := by decide

theorem test_witness_StepKeepsInvariant : (start 0xBFFF).Inv ∧ ∃ t, step (start 0xBFFF) = .next t := by
  refine ⟨⟨by decide, by decide, ?_, by decide⟩, _, rfl⟩
  intro j a h
  have hs : (start 0xBFFF).stack = Vector.replicate 16 0 := rfl
  simp only [State.slot, hs, Vector.getElem?_replicate] at h
  split at h
  · cases h; decide
  · cases h

theorem test_witness_ResetAndPortsMeetInvariant :
    Memory.wf State.reset.font State.reset.mem = true ∧ State.reset.sp.toNat ≤ 16 ∧ State.reset.pc.toNat ≤ 0x10FE ∧
    (load [0x60#8, 0x05#8] State.reset).toOption.isSome = true := by decide

theorem test_witness_ResetHoldsTheStatedValues :
    State.reset.peek 0x04F = 0#8 ∧ State.reset.peek 0x0A0 = 0#8 ∧ State.reset.peek 0xFFF = 0#8 := by
  decide

/-- A byte does change, at the first and at the last address of each store. -/
theorem test_witness_OnlyStoresChangeMemory :
    let s := regs [(0, 255), (1, 7)] { start 0xF033 with i := 0x300#16 }
    let u := regs [(0, 255), (1, 7)] { start 0xF155 with i := 0x300#16 }
    (Memory.wf s.font s.mem = true ∧ ∃ t, step s = .next t ∧ t.peek 0x300 ≠ s.peek 0x300 ∧ t.peek 0x302 ≠ s.peek 0x302) ∧
    (Memory.wf u.font u.mem = true ∧ ∃ t, step u = .next t ∧ t.peek 0x300 ≠ u.peek 0x300 ∧
      t.peek 0x301 ≠ u.peek 0x301) := by
  refine ⟨⟨by decide, _, rfl, by decide⟩, by decide, _, rfl, by decide⟩

theorem test_witness_WritersOfIndexScreenAndStack :
    (∃ t, step (start 0xA300) = .next t ∧ t.i ≠ (start 0xA300).i) ∧
    (∃ t, step (bytes 0x300 [0x80] { start 0xD011 with i := 0x300#16 }) = .next t ∧ t.cell 0 0 = true) ∧
    (∃ t, step (start 0x2400) = .next t ∧ t.slot 0 ≠ (start 0x2400).slot 0 ∧ t.sp ≠ (start 0x2400).sp) := by
  refine ⟨⟨_, rfl, ?_⟩, ⟨_, rfl, ?_⟩, _, rfl, ?_⟩ <;> decide

theorem test_witness_FlagIsWrittenOnlyWhereNamed :
    (∃ t, exec (.addReg 0#4 1#4) (regs [(0, 255), (1, 1)] State.reset) = .next t ∧ t.reg 0xF#4 = 1#8 ∧ t.fault = none) ∧
    writesFlag (.addReg 0#4 1#4) = true ∧
    (∃ t, exec (.ldImm 0xF#4 9#8) State.reset = .next t ∧ t.reg 0xF#4 ≠ State.reset.reg 0xF#4) := by
  refine ⟨⟨_, rfl, ?_⟩, ?_, _, rfl, ?_⟩ <;> decide

/-- A different key vector for an instruction that reads no keys, and a different random byte for one that reads no
random byte. -/
theorem test_witness_InputsAreReadOnlyWhereNamed :
    readsKeys (.rnd 0#4 0xFF#8) = false ∧ readsRnd (.ldVxK 0#4) = false ∧ readsKeys (.jp 0#12) = false ∧
    readsRnd (.jp 0#12) = false ∧ readsKeys (.skp 0#4) = true ∧ readsRnd (.rnd 0#4 0xFF#8) = true := by decide

/-- Two states that differ in the slots from SP on, at SP = 1 and at SP = 16 (where there is none). -/
theorem test_witness_StaleStackSlotsAreUnobservable :
    let s := { start 0x00EE with sp := 1#8, stack := (Vector.replicate 16 0#16).set 0 0x208#16 }
    let t := { s with stack := s.stack.set 1 0x999#16 }
    SameButStaleSlots s t ∧ t ≠ s ∧ s.sp.toNat ≤ 16 ∧ (∃ u, step s = .next u) ∧
    SameButStaleSlots { s with sp := 16#8 } { s with sp := 16#8 } := by
  refine ⟨⟨rfl, ?_⟩, ?_, ?_, ⟨_, rfl⟩, rfl, fun _ _ => rfl⟩
  · intro j hj
    have : j = 0 := by simpa using hj
    subst this; decide
  · intro h; exact absurd (congrArg (fun u => u.slot 1) h) (by decide)
  · decide

theorem test_witness_SoundTimerIsNotReadByInstructions : ∀ x, Instr.ldVxDt 0#4 ≠ .ldStVx x := by decide

theorem test_witness_RetPopsReturnAddress :
    State.reset.sp.toNat = 0 ∧ 0 < ({ State.reset with sp := 1#8 }).sp.toNat ∧
    ({ State.reset with sp := 16#8 }).sp.toNat ≤ 16 := by decide

theorem test_witness_CallPushesReturnAddress :
    16 ≤ ({ State.reset with sp := 16#8 }).sp.toNat ∧ ({ State.reset with sp := 15#8 }).sp.toNat < 16 ∧
    State.reset.sp.toNat < 16 := by decide

theorem test_witness_CallThenReturnComesBack : ({ State.reset with sp := 15#8 }).sp.toNat < 16 := by decide

/-- A destination that is not VF. -/
theorem test_witness_AddSetsCarryLast : (0xE#4 : Reg) ≠ 0xF#4 := by decide
theorem test_witness_SubtractionsSetNotBorrowLast : (0xE#4 : Reg) ≠ 0xF#4 := by decide
theorem test_witness_ShiftsSetShiftedOutBitLast : (0xE#4 : Reg) ≠ 0xF#4 := by decide

theorem test_witness_RandomByteIsMasked : (0x0F#8).getLsbD 7 = false ∧ (0x0F#8).getLsbD 0 = true := by decide

theorem test_witness_BcdStoresThreeDigits :
    Memory.wf State.reset.font State.reset.mem = true ∧ 0xFFF < ({ State.reset with i := 0xFFE#16 }).i.toNat + 2 ∧
    ({ State.reset with i := 0xFFD#16 }).i.toNat + 2 ≤ 0xFFF := by decide

theorem test_witness_StoreWritesRegistersUpToX :
    Memory.wf State.reset.font State.reset.mem = true ∧
    0xFFF < ({ State.reset with i := 0xFF1#16 }).i.toNat + (0xF#4).toNat ∧
    ({ State.reset with i := 0xFF0#16 }).i.toNat + (0xF#4).toNat ≤ 0xFFF := by decide

theorem test_witness_LoadReadsRegistersUpToX :
    0xFFF < ({ State.reset with i := 0x1000#16 }).i.toNat + (0#4).toNat ∧
    ({ State.reset with i := 0xFFF#16 }).i.toNat + (0#4).toNat ≤ 0xFFF := by decide

theorem test_witness_StoredWordIsFetchedNext :
    let s := { start 0xF155 with i := 0x202#16 }
    Memory.wf s.font s.mem = true ∧ s.fault = none ∧ MayFetch s ∧ decode (wordAt s) = .assigned (.stRegs 1#4) ∧
    1 ≤ (1#4).toNat ∧ s.i.toNat = s.pc.toNat + 2 ∧ s.i.toNat + (1#4).toNat ≤ 0xFFF := by
  unfold MayFetch; decide

/-- A sprite byte past the top; a set bit past the edge, the memory in range; and sprites that fit: one whose last
column is 63, and the empty one. -/
theorem test_witness_DrawTogglesCoveredCells :
    0x1000 < ({ State.reset with i := 0xFFE#16 }).i.toNat + 3 ∧
    (let s := bytes 0x300 [0x01] (regs [(0, 57)] { State.reset with i := 0x300#16 })
     s.i.toNat + 1 ≤ 0x1000 ∧ ∃ X Y, Covers s 0#4 1#4 1 X Y ∧ (63 < X ∨ 31 < Y)) ∧
    DrawFits (bytes 0x300 [0x01] (regs [(0, 56)] { State.reset with i := 0x300#16 })) 0#4 1#4 1 ∧
    Covers (bytes 0x300 [0x01] (regs [(0, 56)] { State.reset with i := 0x300#16 })) 0#4 1#4 1 63 0 ∧
    DrawFits { State.reset with i := 0xFFFF#16 } 0#4 1#4 0 := by
  refine ⟨by decide, ⟨by decide, 64, 0, ⟨0, 7, by decide⟩, by decide⟩, ⟨by decide, ?_⟩, ⟨0, 7, by decide⟩, by decide, ?_⟩
  · rintro X Y ⟨r, c, hr, hc, hb, rfl, rfl⟩
    have : r = 0 := by omega
    subst this
    refine ⟨?_, by decide⟩
    revert hb; revert c; decide
  · rintro X Y ⟨r, c, hr, -⟩
    omega

/-- The hypotheses of the second draw: VF is not an origin register. -/
theorem test_witness_DrawTwiceRestoresTheScreen :
    let s := bytes 0x300 [0x80] { State.reset with i := 0x300#16 }
    DrawFits s 0#4 1#4 1 ∧ ∃ t, exec (.drw 0#4 1#4 1) s = .next t ∧ t.reg 0#4 = s.reg 0#4 ∧ t.reg 1#4 = s.reg 1#4 ∧
      t.cell 0 0 = true := by
  refine ⟨⟨by decide, ?_⟩, _, rfl, by decide⟩
  rintro X Y ⟨r, c, hr, hc, hb, rfl, rfl⟩
  have : r = 0 := by omega
  subst this
  refine ⟨?_, by decide⟩
  revert hb; revert c; decide

theorem test_witness_KeySkipsTestTheNamedKey :
    15 < ((regs [(0, 16)] State.reset).reg 0#4).toNat ∧ ((regs [(0, 15)] State.reset).reg 0#4).toNat ≤ 15 := by decide

/-- No key; only key 15; keys 0 and 15. -/
theorem test_witness_KeyWaitTakesLowestKeyOrRepeats :
    (∀ k, (h : k < 16) → (input [] 0 State.reset).input.keys[k] = false) ∧
    ((input [15] 0 State.reset).input.keys[15] = true ∧
      ∀ j, (h : j < 15) → (input [15] 0 State.reset).input.keys[j] = false) ∧
    (input [0, 15] 0 State.reset).input.keys[0] = true := by decide

theorem test_witness_DelayWrittenThenReadIsOneLess :
    let s := bytes 0x202 [0xF3, 0x07] (start 0xF015)
    s.fault = none ∧ MayFetch s ∧ s.pc.toNat + 3 ≤ 0xFFF ∧ decode (wordAt s) = .assigned (.ldDtVx 0#4) ∧
    decode (s.peek (s.pc.toNat + 2) ++ s.peek (s.pc.toNat + 3)) = .assigned (.ldVxDt 3#4) := by
  unfold MayFetch; decide

theorem test_witness_LoadCopiesTheProgram :
    Memory.wf State.reset.font State.reset.mem = true ∧ 3584 < (List.replicate 3585 0#8).length ∧
    (List.replicate 3584 0#8).length ≤ 3584 ∧ ([] : List (BitVec 8)).length ≤ 3584 := by
  rw [List.length_replicate, List.length_replicate]; decide

theorem test_witness_CycleDependsOnlyOnStateAndInputs :
    let s' := { start 0x1234 with cycle := 9, inputs := [⟨Vector.replicate 16 true, 5#8⟩] }
    coreOf s' = coreOf (start 0x1234) ∧ s' ≠ start 0x1234 ∧
    ∃ t, cycle (Vector.replicate 16 false) 0#8 (start 0x1234) = .next t := by
  refine ⟨rfl, ?_, _, rfl⟩
  intro h; exact absurd (congrArg State.cycle h) (by decide)

theorem test_witness_IdleCycleOnlyTicks : Idle (start 0x1200) :=
  ⟨by decide, by decide, 0x200#12, by decide, by decide⟩

theorem test_witness_PlacedWordIsTheNextToRun :
    Memory.wf State.reset.font State.reset.mem = true ∧ 0xFFFF < 65536 ∧ decodeTableWord 16 0xFFFF = none ∧
    decodeTableWord 16 0xFF65 = some (.ldRegs 0xF#4) := by decide

/-- A state the reset port changes in every kind of component. -/
theorem test_witness_ResetPortRestoresEveryComponent :
    let s := bytes 0x200 [0x12, 0x34] (regs [(3, 9)]
      { State.reset with i := 5#16, pc := 0x300#16, sp := 1#8, dt := 2#8, st := 3#8, fb := fbFlip fbClear 1 1,
                         fault := some .memoryOutOfRange })
    s.peek 0x200 = 0x12#8 ∧ (resetPort s).peek 0x200 = 0#8 ∧ (resetPort s).reg 3#4 = 0#8 ∧ (resetPort s).cell 1 1 = false := by
  decide

/-- Two inputs that differ in every key and in the byte. -/
theorem test_witness_CycleReadsTheInputItIsGiven :
    ({ State.reset with inputs := [⟨Vector.replicate 16 true, 0xA7#8⟩] }).keyHeld 15 = true ∧
    ({ State.reset with inputs := [⟨Vector.replicate 16 false, 0#8⟩] }).keyHeld 15 = false ∧
    ({ State.reset with inputs := [⟨Vector.replicate 16 true, 0xA7#8⟩] }).rnd = 0xA7#8 := by decide

/-- A running core at each of the four instructions, the key number at its largest; no key, and only key 15. -/
theorem test_witness_CyclePortFeedsTheReadingInstructions :
    (start 0xC20F).fault = none ∧ MayFetch (start 0xC20F) ∧ decode (wordAt (start 0xC20F)) = .assigned (.rnd 2#4 0x0F#8) ∧
    ((regs [(0, 15)] (start 0xE09E)).reg 0#4).toNat ≤ 15 ∧
    decode (wordAt (regs [(0, 15)] (start 0xE09E))) = .assigned (.skp 0#4) ∧
    decode (wordAt (regs [(0, 15)] (start 0xE0A1))) = .assigned (.sknp 0#4) ∧
    decode (wordAt (start 0xF00A)) = .assigned (.ldVxK 0#4) ∧
    (∀ k, (h : k < 16) → (Vector.replicate 16 false)[k] = false) ∧
    ((Vector.replicate 16 false).set 15 true)[15] = true ∧
    (∀ j, (h : j < 15) → ((Vector.replicate 16 false).set 15 true)[j] = false) := by
  unfold MayFetch; decide

end Sys2Proof.Tests
end

section
/-! SUPPORT. What the instructions can answer, said once: the outcomes of each handler that branches, that every
instruction but RET answers a next state, and the frame of every instruction (00_scope.md R14). -/

namespace Sys2Proof.Machine

/-! ### What each handler with a branch can answer -/

/-- RET raises, or takes PC from the slot below SP and keeps every slot (41_control_flow.md R81). -/
theorem execRet_cases {s t : State} (h : execRet s = .next t) :
    (s.sp = 0#8 ∧ t = s.raiseFault .stackUnderflow) ∨
    (s.sp ≠ 0#8 ∧ ∃ a, s.slot (s.sp - 1#8).toNat = some a ∧ t = { s.setPc a with sp := s.sp - 1#8 }) := by
  unfold execRet at h
  split at h
  · next h0 => cases h; exact .inl ⟨h0, rfl⟩
  · next h0 =>
    split at h
    · next a ha => cases h; exact .inr ⟨h0, a, ha, rfl⟩
    · cases h

/-- CALL raises, or pushes the advanced PC and jumps (R83). -/
theorem execCall_cases {nnn : BitVec 12} {s t : State} (h : execCall nnn s = .next t) :
    (16 ≤ s.sp.toNat ∧ t = s.raiseFault .stackOverflow) ∨
    (s.sp.toNat < 16 ∧ t = (s.push s.advancePc.pc).setPc (zextAddr nnn)) := by
  unfold execCall at h
  split at h
  · next h16 => cases h; exact .inl ⟨h16, rfl⟩
  · next h16 => cases h; exact .inr ⟨Nat.lt_of_not_le h16, rfl⟩

/-- A key skip raises or is a skip (45_timers_keys.md R111, R112). -/
theorem keySkip_cases {p : Prop} [Decidable p] {s t : State} {k : FaultKind} {c : Bool}
    (h : (if p then .next (s.raiseFault k) else .next (s.skipIf c) : Result) = .next t) :
    (∃ k, t = s.raiseFault k) ∨ ∃ c, t = s.skipIf c := by
  split at h <;> cases h
  · exact .inl ⟨k, rfl⟩
  · exact .inr ⟨c, rfl⟩

/-- `LD Vx, K` writes the key it found, or goes back to its own address (R114). -/
theorem execLdVxK_cases {x : Reg} {s t : State} (h : execLdVxK x s = .next t) :
    (∃ b, t = s.advancePc.setReg x b) ∨ t = s.setPc s.pc := by
  unfold execLdVxK at h
  split at h <;> cases h
  · exact .inl ⟨_, rfl⟩
  · exact .inr (by rw [State.advancePc_pc, BitVec.add_sub_cancel])

/-- DRW raises, or writes the framebuffer and then a flag in VF (44_display.md R109). -/
theorem execDrw_cases {x y : Reg} {n : Nat} {s t : State} (h : execDrw x y n s = .next t) :
    (∃ k, t = s.raiseFault k) ∨ ∃ fb c, t = (s.advancePc.setFb fb).setReg vf (flagByte c) := by
  obtain ⟨u, hu, hs⟩ | ⟨k, -, hs⟩ := settle_cases s
    ((readBlock s s.i.toNat n).bind (drawSprite s.advancePc (originX s x) (originY s y)))
  · cases h.symm.trans hs
    cases hb : readBlock s s.i.toNat n with
    | error k => rw [hb] at hu; cases hu
    | ok rows =>
      rw [hb] at hu
      change drawSprite _ _ _ rows = _ at hu
      unfold drawSprite at hu
      split at hu <;> cases hu
      exact .inr ⟨_, _, rfl⟩
  · cases h.symm.trans hs
    exact .inl ⟨k, rfl⟩

/-- A block store raises, or writes its bytes inside the address space (20_memory.md R45). -/
theorem settle_writeBlock_cases {s t : State} {a : Nat} {bs : List Byte} (hbs : bs ≠ [])
    (h : settle s (writeBlock s.advancePc a bs) = .next t) :
    (∃ k, t = s.raiseFault k) ∨ (a + bs.length ≤ Config.memSize ∧ t = s.advancePc.pokeAll a bs) := by
  rw [writeBlock_eq] at h
  split at h <;> cases h
  · next hin => exact .inr ⟨hin.resolve_left (mt List.length_eq_zero_iff.1 hbs), rfl⟩
  · exact .inl ⟨_, rfl⟩

theorem execLdB_cases {x : Reg} {s t : State} (h : execLdB x s = .next t) :
    (∃ k, t = s.raiseFault k) ∨ (s.i.toNat + (bcdDigits (s.reg x)).length ≤ Config.memSize ∧
      t = s.advancePc.pokeAll s.i.toNat (bcdDigits (s.reg x))) :=
  settle_writeBlock_cases (List.cons_ne_nil _ _) h

theorem execStRegs_cases {x : Reg} {s t : State} (h : execStRegs x s = .next t) :
    (∃ k, t = s.raiseFault k) ∨ (s.i.toNat + (s.regsUpTo x).length ≤ Config.memSize ∧
      t = s.advancePc.pokeAll s.i.toNat (s.regsUpTo x)) :=
  settle_writeBlock_cases (List.ne_nil_of_length_eq_add_one (s.length_regsUpTo x)) h

/-- A block load raises, or writes V0..Vx (43_index_memory.md R107). -/
theorem execLdRegs_cases {x : Reg} {s t : State} (h : execLdRegs x s = .next t) :
    (∃ k, t = s.raiseFault k) ∨ ∃ bs : List Byte, bs.length = x.toNat + 1 ∧ t = s.advancePc.setRegs 0 bs := by
  unfold execLdRegs at h
  rw [readBlock_eq] at h
  split at h <;> cases h
  · exact .inr ⟨_, State.length_peekAll _ _ _, rfl⟩
  · exact .inl ⟨_, rfl⟩

/-! ### An instruction always answers a next state, but for RET above the stack -/

theorem settle_answers (s : State) (r : Except FaultKind State) : ∃ t, settle s r = .next t := by
  obtain ⟨t, -, h⟩ | ⟨k, -, h⟩ := settle_cases s r
  · exact ⟨_, h⟩
  · exact ⟨_, h⟩

theorem ite_answers {p : Prop} [Decidable p] (t u : State) :
    ∃ w, (if p then .next t else .next u : Result) = .next w := by
  split
  · exact ⟨t, rfl⟩
  · exact ⟨u, rfl⟩

theorem exec_answers {i : Instr} {s : State} (h : i = .ret → s.sp.toNat ≤ 16) : ∃ t, exec i s = .next t := by
  cases i with
  | ret =>
    have hsp := h rfl
    change ∃ t, execRet s = .next t
    unfold execRet
    split
    · exact ⟨_, rfl⟩
    · next h0 =>
      have hlt : (s.sp - 1#8).toNat < 16 := by bv_omega
      rw [State.slot, Vector.getElem?_eq_getElem hlt]
      exact ⟨_, rfl⟩
  | call nnn => exact ite_answers _ _
  | skp x => exact ite_answers _ _
  | sknp x => exact ite_answers _ _
  | drw x y n => exact settle_answers s _
  | ldB x => exact settle_answers s _
  | stRegs x => exact settle_answers s _
  | ldRegs x => exact settle_answers s _
  | _ => exact ⟨_, rfl⟩

end Sys2Proof.Machine

namespace Sys2Proof

open Sys2Proof.Machine

/-! ### The frame of every instruction (00_scope.md R14) -/

/-- The general registers an instruction may write (10_state.md R19, R21). -/
def Instr.destRegs : Instr → Set Reg
  | .ldImm x _ | .addImm x _ | .ldReg x _ | .orReg x _ | .andReg x _ | .xorReg x _ | .rnd x _ | .ldVxDt x
  | .ldVxK x => {x}
  | .addReg x _ | .sub x _ | .shr x | .subn x _ | .shl x => {x, vf}
  | .drw _ _ _ => {vf}
  | .ldRegs x => {r | r.toNat ≤ x.toNat}
  | _ => ∅

/-- The parts of the state, beside PC and the general registers, that an instruction may write. -/
def Instr.destParts : Instr → Set Part
  | .ldI _ | .addI _ | .ldF _ => {.index}
  | .ldB _ | .stRegs _ => {.memory}
  | .ret | .call _ => {.stack}
  | .ldDtVx _ => {.delay}
  | .ldStVx _ => {.sound}
  | .cls | .drw _ _ _ => {.screen}
  | _ => ∅

end Sys2Proof

namespace Sys2Proof.Machine

theorem ChangesOnly.setI (regs : Set Reg) {parts : Set Part} (hp : Part.index ∈ parts) (s : State) (a : Addr) :
    ChangesOnly regs parts s (s.setI a) := by simp [ChangesOnly, hp]

theorem ChangesOnly.setDt (regs : Set Reg) {parts : Set Part} (hp : Part.delay ∈ parts) (s : State) (b : Byte) :
    ChangesOnly regs parts s (s.setDt b) := by simp [ChangesOnly, hp]

theorem ChangesOnly.setSt (regs : Set Reg) {parts : Set Part} (hp : Part.sound ∈ parts) (s : State) (b : Byte) :
    ChangesOnly regs parts s (s.setSt b) := by simp [ChangesOnly, hp]

theorem ChangesOnly.setFb (regs : Set Reg) {parts : Set Part} (hp : Part.screen ∈ parts) (s : State)
    (fb : Framebuffer) : ChangesOnly regs parts s (s.setFb fb) := by simp [ChangesOnly, hp]

theorem ChangesOnly.push (regs : Set Reg) {parts : Set Part} (hp : Part.stack ∈ parts) (s : State) (a : Addr) :
    ChangesOnly regs parts s (s.push a) := by simp [ChangesOnly, hp]

theorem ChangesOnly.setSp (regs : Set Reg) {parts : Set Part} (hp : Part.stack ∈ parts) (s : State) (b : Byte) :
    ChangesOnly regs parts s { s with sp := b } := by
  simp [ChangesOnly, hp, State.reg, State.peek, State.cell]

/-- An instruction raises a fault, or changes nothing but PC and its own registers and parts. -/
theorem exec_frame {i : Instr} {s t : State} (h : exec i s = .next t) :
    (∃ k, t = s.raiseFault k) ∨ ChangesOnly i.destRegs i.destParts s t := by
  have advanced := ChangesOnly.advancePc i.destRegs i.destParts s
  cases i with
  | ldImm x | addImm x | ldReg x | orReg x | andReg x | xorReg x | rnd x | ldVxDt x =>
    cases h
    exact .inr (advanced.trans (.setReg _ _ (Set.mem_singleton x) _))
  | addReg x | sub x | shr x | subn x | shl x =>
    cases h
    exact .inr (advanced.trans (.setRegFlag _ _ (.inl rfl) (.inr rfl) _ _))
  | seImm | sneImm | seReg | sneReg => cases h; exact .inr (.skipIf _ _ s _)
  | jp | jpV0 => cases h; exact .inr (.setPc _ _ s _)
  | ldI | addI | ldF => cases h; exact .inr (advanced.trans (.setI _ (Set.mem_singleton _) _ _))
  | ldDtVx => cases h; exact .inr (advanced.trans (.setDt _ (Set.mem_singleton _) _ _))
  | ldStVx => cases h; exact .inr (advanced.trans (.setSt _ (Set.mem_singleton _) _ _))
  | cls => cases h; exact .inr (advanced.trans (.setFb _ (Set.mem_singleton _) _ _))
  | skp | sknp =>
    obtain hk | ⟨c, rfl⟩ := keySkip_cases h
    · exact .inl hk
    · exact .inr (.skipIf _ _ s c)
  | ldVxK x =>
    obtain ⟨b, rfl⟩ | rfl := execLdVxK_cases h
    · exact .inr (advanced.trans (.setReg _ _ (Set.mem_singleton x) b))
    · exact .inr (.setPc _ _ s _)
  | ret =>
    obtain ⟨-, rfl⟩ | ⟨-, a, -, rfl⟩ := execRet_cases h
    · exact .inl ⟨_, rfl⟩
    · exact .inr ((ChangesOnly.setPc _ _ s a).trans (.setSp _ (Set.mem_singleton _) _ _))
  | call =>
    obtain ⟨-, rfl⟩ | ⟨-, rfl⟩ := execCall_cases h
    · exact .inl ⟨_, rfl⟩
    · exact .inr ((ChangesOnly.push _ (Set.mem_singleton _) s _).trans (.setPc _ _ _ _))
  | drw =>
    obtain hk | ⟨fb, c, rfl⟩ := execDrw_cases h
    · exact .inl hk
    · exact .inr ((advanced.trans (.setFb _ (Set.mem_singleton _) _ fb)).trans (.setReg _ _ (Set.mem_singleton _) _))
  | ldB =>
    obtain hk | ⟨-, rfl⟩ := execLdB_cases h
    · exact .inl hk
    · exact .inr (advanced.trans (.pokeAll _ (Set.mem_singleton _) _ _ _))
  | stRegs =>
    obtain hk | ⟨-, rfl⟩ := execStRegs_cases h
    · exact .inl hk
    · exact .inr (advanced.trans (.pokeAll _ (Set.mem_singleton _) _ _ _))
  | ldRegs x =>
    obtain hk | ⟨bs, hlen, rfl⟩ := execLdRegs_cases h
    · exact .inl hk
    · refine .inr (advanced.trans (.setRegs _ _ fun j _ hj => ?_))
      have hx := x.isLt
      simp only [Instr.destRegs, Set.mem_ofPred_eq, BitVec.toNat_ofNat]
      omega

theorem ChangesOnly.reg_eq {regs : Set Reg} {parts : Set Part} {s t : State} (h : ChangesOnly regs parts s t) {r : Reg}
    (hr : r ∉ regs) : t.reg r = s.reg r := by
  obtain ⟨hregs, -⟩ := h
  exact hregs r hr

theorem ChangesOnly.i_eq {regs : Set Reg} {parts : Set Part} {s t : State} (h : ChangesOnly regs parts s t)
    (hp : Part.index ∉ parts) : t.i = s.i := by
  obtain ⟨-, hi, -⟩ := h
  exact hi hp

theorem ChangesOnly.stack_eq {regs : Set Reg} {parts : Set Part} {s t : State} (h : ChangesOnly regs parts s t)
    (hp : Part.stack ∉ parts) : t.sp = s.sp ∧ ∀ j, t.slot j = s.slot j := by
  obtain ⟨-, -, -, hstack, -⟩ := h
  exact hstack hp

theorem ChangesOnly.cell_eq {regs : Set Reg} {parts : Set Part} {s t : State} (h : ChangesOnly regs parts s t)
    (hp : Part.screen ∉ parts) (x y : Nat) : t.cell x y = s.cell x y := by
  obtain ⟨-, -, -, -, -, -, hcell, -⟩ := h
  exact hcell hp x y

/-- A framebuffer is its cells. -/
theorem fb_ext {fb fb' : Framebuffer} (h : ∀ x y, fbCell fb x y = fbCell fb' x y) : fb = fb' := by
  ext y hy x hx
  simpa only [fbCell, dif_pos (And.intro hy hx)] using h x y

section
variable {i : Instr} {s t : State} (h : exec i s = .next t)
include h

theorem exec_reg_eq {r : Reg} (hr : r ∉ i.destRegs) : t.reg r = s.reg r := by
  obtain ⟨k, rfl⟩ | hframe := exec_frame h
  · rfl
  · exact hframe.reg_eq hr

theorem exec_i_eq (hp : Part.index ∉ i.destParts) : t.i = s.i := by
  obtain ⟨k, rfl⟩ | hframe := exec_frame h
  · rfl
  · exact hframe.i_eq hp

theorem exec_stack_eq (hp : Part.stack ∉ i.destParts) : t.sp = s.sp ∧ ∀ j, t.slot j = s.slot j := by
  obtain ⟨k, rfl⟩ | hframe := exec_frame h
  · exact ⟨rfl, fun _ => rfl⟩
  · exact hframe.stack_eq hp

theorem exec_fb_eq (hp : Part.screen ∉ i.destParts) : t.fb = s.fb := by
  obtain ⟨k, rfl⟩ | hframe := exec_frame h
  · rfl
  · exact fb_ext (hframe.cell_eq hp)

end

/-! ### Which instructions write a part, or VF -/

theorem spelling_of_index_mem {i : Instr} (h : Part.index ∈ i.destParts) : i.spelling ∈ ["Annn", "Fx1E", "Fx29"] := by
  cases i with
  | ldI | addI | ldF => simp [Instr.spelling]
  | _ => simp [Instr.destParts] at h

theorem spelling_of_screen_mem {i : Instr} (h : Part.screen ∈ i.destParts) : i.spelling ∈ ["00E0", "Dxyn"] := by
  cases i with
  | cls | drw => simp [Instr.spelling]
  | _ => simp [Instr.destParts] at h

theorem stack_mem_destParts {i : Instr} : Part.stack ∈ i.destParts ↔ i = .ret ∨ ∃ nnn, i = .call nnn := by
  cases i <;> simp [Instr.destParts]

theorem sound_mem_destParts {i : Instr} : Part.sound ∈ i.destParts ↔ ∃ x, i = .ldStVx x := by
  cases i <;> simp [Instr.destParts]

open Sys2Proof.Claims in
theorem writesFlag_or_namesVf {i : Instr} (h : vf ∈ i.destRegs) : writesFlag i = true ∨ namesVf i = true := by
  cases i with
  | addReg | sub | shr | subn | shl | drw => exact .inl rfl
  | ldImm x | addImm x | ldReg x | orReg x | andReg x | xorReg x | rnd x | ldVxDt x | ldVxK x =>
    exact .inr (decide_eq_true (Set.mem_singleton_iff.1 h).symm)
  | ldRegs x =>
    have hx : vf.toNat ≤ x.toNat := h
    exact .inr (decide_eq_true (by bv_omega))
  | _ => exact absurd h (Set.notMem_empty _)

/-- RET keeps every slot, and CALL every slot but the one at SP. -/
theorem exec_slot_change {i : Instr} {s t : State} (h : exec i s = .next t) {j : Nat} (hj : t.slot j ≠ s.slot j) :
    j = s.sp.toNat ∧ ∃ nnn, i = .call nnn := by
  by_cases hp : Part.stack ∈ i.destParts
  · obtain rfl | ⟨nnn, rfl⟩ := stack_mem_destParts.1 hp
    · obtain ⟨-, rfl⟩ | ⟨-, a, -, rfl⟩ := execRet_cases h <;> exact absurd rfl hj
    · obtain ⟨-, rfl⟩ | ⟨hsp, rfl⟩ := execCall_cases h
      · exact absurd rfl hj
      · rw [State.slot_setPc, State.slot_push s hsp] at hj
        exact ⟨by_contra fun hne => hj (if_neg hne), nnn, rfl⟩
  · exact absurd ((exec_stack_eq h hp).2 j) hj

theorem flagByte_eq (b : Bool) : flagByte b = 0#8 ∨ flagByte b = 1#8 := by
  cases b
  · exact .inl rfl
  · exact .inr rfl

open Sys2Proof.Claims in
/-- A flag writer that raises no fault leaves a flag in VF. -/
theorem exec_flag {i : Instr} {s t : State} (hi : writesFlag i = true) (h : exec i s = .next t) :
    (∃ k, t = s.raiseFault k) ∨ ∃ b, t.reg vf = flagByte b := by
  cases i with
  | addReg | sub | shr | subn | shl => cases h; exact .inr ⟨_, State.reg_setReg_self _ vf _⟩
  | drw =>
    obtain hk | ⟨fb, c, rfl⟩ := execDrw_cases h
    · exact .inl hk
    · exact .inr ⟨c, State.reg_setReg_self _ vf _⟩
  | _ => cases hi

end Sys2Proof.Machine
end

section
/-! SUPPORT. The end of a cycle and the step: what each keeps, and that a step of a legal stack pointer answers. -/

namespace Sys2Proof.Machine

/-- The end of a cycle writes only the timers, the queue and the cycle number. -/
theorem State.endCycle_eq (s : State) : ∃ dt st inputs n,
    s.endCycle = { s with dt := dt, st := st, inputs := inputs, cycle := n } := by
  by_cases h : s.fault = none
  · exact ⟨_, _, _, _, State.endCycle_running h⟩
  · exact ⟨_, _, _, _, State.endCycle_faulted h⟩

@[simp] theorem State.endCycle_mem (s : State) : s.endCycle.mem = s.mem := by
  obtain ⟨_, _, _, _, h⟩ := s.endCycle_eq; rw [h]
@[simp] theorem State.endCycle_v (s : State) : s.endCycle.v = s.v := by
  obtain ⟨_, _, _, _, h⟩ := s.endCycle_eq; rw [h]
@[simp] theorem State.endCycle_i (s : State) : s.endCycle.i = s.i := by
  obtain ⟨_, _, _, _, h⟩ := s.endCycle_eq; rw [h]
@[simp] theorem State.endCycle_pc (s : State) : s.endCycle.pc = s.pc := by
  obtain ⟨_, _, _, _, h⟩ := s.endCycle_eq; rw [h]
@[simp] theorem State.endCycle_stack (s : State) : s.endCycle.stack = s.stack := by
  obtain ⟨_, _, _, _, h⟩ := s.endCycle_eq; rw [h]
@[simp] theorem State.endCycle_sp (s : State) : s.endCycle.sp = s.sp := by
  obtain ⟨_, _, _, _, h⟩ := s.endCycle_eq; rw [h]
@[simp] theorem State.endCycle_fb (s : State) : s.endCycle.fb = s.fb := by
  obtain ⟨_, _, _, _, h⟩ := s.endCycle_eq; rw [h]
@[simp] theorem State.endCycle_font (s : State) : s.endCycle.font = s.font := by
  obtain ⟨_, _, _, _, h⟩ := s.endCycle_eq; rw [h]

@[simp] theorem State.reg_endCycle (s : State) (x : Reg) : s.endCycle.reg x = s.reg x :=
  State.reg_congr s.endCycle_v x
@[simp] theorem State.slot_endCycle (s : State) (j : Nat) : s.endCycle.slot j = s.slot j :=
  State.slot_congr s.endCycle_stack j

theorem step_faulted {s : State} (hf : s.fault ≠ none) : step s = .next s :=
  if_pos (Option.isSome_iff_ne_none.2 hf)

theorem step_unfetchable {s : State} (hf : s.fault = none) (hp : s.fetchable = false) :
    step s = .next (s.raiseFault .fetchOutOfRange) := by
  simp [step, hf, hp]

theorem execDecoded_answers {d : Decoded} {s : State} (h : s.sp.toNat ≤ 16) : ∃ t, execDecoded d s = .next t := by
  cases d with
  | assigned i => exact exec_answers fun _ => h
  | noOp => exact ⟨_, rfl⟩

open Sys2Proof.Claims in
/-- What neither a fault, nor the advance, nor the end of a cycle writes, a step changes only by the instruction it
runs. -/
theorem step_change {α : Type} {g : State → α} (hraise : ∀ s k, g (s.raiseFault k) = g s)
    (hadvance : ∀ s, g s.advancePc = g s) (hend : ∀ s, g s.endCycle = g s) {s t : State} (h : step s = .next t)
    (hne : g t ≠ g s) :
    ∃ i u, decode (wordAt s) = .assigned i ∧ exec i s = .next u ∧ t = u.endCycle ∧ g u ≠ g s := by
  obtain ⟨-, rfl⟩ | ⟨-, -, rfl⟩ | ⟨-, -, u, hu, rfl⟩ := step_cases h
  · exact absurd rfl hne
  · exact absurd (hraise s _) hne
  · rw [hend] at hne
    cases hd : decode (wordAt s) with
    | assigned i =>
      rw [show s.fetchWord = wordAt s from rfl, hd] at hu
      exact ⟨i, u, rfl, hu, rfl, hne⟩
    | noOp =>
      rw [show s.fetchWord = wordAt s from rfl, hd] at hu
      cases hu
      exact absurd (hadvance s) hne

end Sys2Proof.Machine
end

section
/-! SUPPORT. The invariant of the machine (10_state.md R25, 20_memory.md R38, 41_control_flow.md R81, R88): each
operation keeps it, so every instruction, every port and every step does. -/

namespace Sys2Proof.Machine

theorem State.Inv.of_kept {s t : State} (hs : s.Inv) (hmem : t.mem = s.mem) (hfont : t.font = s.font)
    (hstack : t.stack = s.stack) (hsp : t.sp = s.sp) (hpc : t.pc.toNat ≤ 0x10FE) : t.Inv := by
  obtain ⟨hwf, hle, hslot, -⟩ := hs
  refine ⟨by rwa [hmem, hfont], by rwa [hsp], fun j a ha => hslot j a ?_, hpc⟩
  rwa [← State.slot_congr hstack]

theorem State.Inv.pc_le {s : State} (hs : s.Inv) : s.pc.toNat ≤ 0x10FE := by
  obtain ⟨-, -, -, hpc⟩ := hs
  exact hpc

theorem State.Inv.raiseFault {s : State} (hs : s.Inv) (k : FaultKind) : (s.raiseFault k).Inv := hs

theorem State.Inv.endCycle {s : State} (hs : s.Inv) : s.endCycle.Inv := by
  obtain ⟨_, _, _, _, h⟩ := s.endCycle_eq
  rw [h]
  exact hs

theorem State.Inv.advancePc {s : State} (hs : s.Inv) (hp : s.fetchable = true) : s.advancePc.Inv := by
  obtain ⟨-, hpc⟩ := (fetchable_iff s).1 hp
  exact hs.of_kept rfl rfl rfl rfl (by rw [State.advancePc_pc]; bv_omega)

theorem State.Inv.skipIf {s : State} (hs : s.Inv) (hp : s.fetchable = true) (c : Bool) : (s.skipIf c).Inv := by
  obtain ⟨-, hpc⟩ := (fetchable_iff s).1 hp
  refine hs.of_kept (by simp) (by simp) (by simp) (by simp) ?_
  rw [State.skipIf_pc]
  split <;> bv_omega

theorem State.Inv.setRegs {s : State} (hs : s.Inv) (k : Nat) (bs : List Byte) : (s.setRegs k bs).Inv :=
  hs.of_kept (by simp) (by simp) (by simp) (by simp) (by simpa using hs.pc_le)

theorem State.Inv.pokeAll {s : State} (hs : s.Inv) {a : Nat} {bs : List Byte}
    (ha : a + bs.length ≤ Config.memSize) : (s.pokeAll a bs).Inv := by
  obtain ⟨hwf, hle, hslot, hpc⟩ := hs
  refine ⟨State.pokeAll_memWf hwf ha, by simpa, fun j b hb => hslot j b ?_, by simpa⟩
  rwa [← State.slot_congr (s.pokeAll_stack a bs)]

theorem toNat_zextAddr_le (nnn : BitVec 12) : (zextAddr nnn).toNat ≤ 0xFFF := by
  unfold zextAddr
  bv_omega

/-- The largest target of `JP V0` (41_control_flow.md R88). -/
theorem toNat_jpV0_target_le (b : Byte) (nnn : BitVec 12) : (zextByte b + zextAddr nnn).toNat ≤ 0x10FE := by
  unfold zextByte zextAddr
  bv_omega

/-- CALL from a fetchable address pushes an address at most 0x1000 (R81). -/
theorem State.Inv.push {s : State} (hs : s.Inv) (hsp : s.sp.toNat < 16) {a : Addr} (ha : a.toNat ≤ 0x1000) :
    (s.push a).Inv := by
  obtain ⟨hwf, hle, hslot, hpc⟩ := hs
  refine ⟨hwf, by rw [State.push_sp]; bv_omega, fun j b hb => ?_, hpc⟩
  rw [State.slot_push s hsp] at hb
  split at hb
  · cases hb; exact ha
  · exact hslot j b hb

theorem State.Inv.setPc {s : State} (hs : s.Inv) {a : Addr} (ha : a.toNat ≤ 0x10FE) : (s.setPc a).Inv :=
  hs.of_kept rfl rfl rfl rfl ha

/-- An instruction at a fetchable PC keeps the invariant. -/
theorem exec_keeps_inv {i : Instr} {s t : State} (hs : s.Inv) (hp : s.fetchable = true) (h : exec i s = .next t) :
    t.Inv := by
  have advanced := hs.advancePc hp
  cases i with
  | seImm | sneImm | seReg | sneReg => cases h; exact hs.skipIf hp _
  | skp | sknp =>
    obtain ⟨k, rfl⟩ | ⟨c, rfl⟩ := keySkip_cases h
    · exact hs.raiseFault k
    · exact hs.skipIf hp c
  | jp nnn => cases h; exact hs.setPc ((toNat_zextAddr_le nnn).trans (by decide))
  | jpV0 nnn => cases h; exact hs.setPc (toNat_jpV0_target_le _ nnn)
  | ret =>
    obtain ⟨-, rfl⟩ | ⟨h0, a, ha, rfl⟩ := execRet_cases h
    · exact hs.raiseFault _
    · obtain ⟨hwf, hle, hslot, hpc⟩ := hs
      refine ⟨hwf, ?_, hslot, (hslot _ a ha).trans (by decide)⟩
      change (s.sp - 1#8).toNat ≤ 16
      bv_omega
  | call nnn =>
    obtain ⟨-, rfl⟩ | ⟨hsp, rfl⟩ := execCall_cases h
    · exact hs.raiseFault _
    · obtain ⟨-, hpc⟩ := (fetchable_iff s).1 hp
      have ha : s.advancePc.pc.toNat ≤ 0x1000 := by rw [State.advancePc_pc]; bv_omega
      exact (hs.push hsp ha).setPc ((toNat_zextAddr_le nnn).trans (by decide))
  | drw =>
    obtain ⟨k, rfl⟩ | ⟨fb, c, rfl⟩ := execDrw_cases h
    · exact hs.raiseFault k
    · exact advanced
  | ldVxK =>
    obtain ⟨b, rfl⟩ | rfl := execLdVxK_cases h
    · exact advanced
    · exact hs
  | ldB =>
    obtain ⟨k, rfl⟩ | ⟨hbs, rfl⟩ := execLdB_cases h
    · exact hs.raiseFault k
    · exact advanced.pokeAll hbs
  | stRegs =>
    obtain ⟨k, rfl⟩ | ⟨hbs, rfl⟩ := execStRegs_cases h
    · exact hs.raiseFault k
    · exact advanced.pokeAll hbs
  | ldRegs =>
    obtain ⟨k, rfl⟩ | ⟨bs, -, rfl⟩ := execLdRegs_cases h
    · exact hs.raiseFault k
    · exact advanced.setRegs 0 bs
  | _ => cases h; exact advanced

theorem execDecoded_keeps_inv {d : Decoded} {s t : State} (hs : s.Inv) (hp : s.fetchable = true)
    (h : execDecoded d s = .next t) : t.Inv := by
  cases d with
  | assigned i => exact exec_keeps_inv hs hp h
  | noOp => cases h; exact hs.advancePc hp

theorem step_keeps_inv {s t : State} (hs : s.Inv) (h : step s = .next t) : t.Inv := by
  obtain ⟨-, rfl⟩ | ⟨-, -, rfl⟩ | ⟨-, hp, u, hu, rfl⟩ := step_cases h
  · exact hs
  · exact hs.raiseFault _
  · exact (execDecoded_keeps_inv hs hp hu).endCycle

theorem resetPort_inv (s : State) : (resetPort s).Inv := by
  refine ⟨rfl, Nat.zero_le 16, fun j a ha => ?_, (by decide : 0x200 ≤ 0x10FE)⟩
  obtain ⟨hj, rfl⟩ := Vector.getElem?_eq_some_iff.1 ha
  simp [resetPort, State.reset]

theorem State.Inv.load {s t : State} {bytes : List Byte} (hs : s.Inv) (h : load bytes s = .ok t) : t.Inv := by
  unfold Machine.load at h
  split at h <;> cases h
  next hfits =>
  have hlen : bytes.length ≤ Config.progMaxLen := of_decide_eq_true hfits
  exact hs.pokeAll (Nat.add_le_add_left hlen Config.progBase)

end Sys2Proof.Machine
end

section
/-! SUPPORT. The parts of the state that few instructions read: under a change of the stack slots, ST or the host's
inputs, every instruction that does not use the changed part does the same. -/

open Sys2Proof.Claims

namespace Sys2Proof.Machine

/-- A change of the parts that few instructions read: the stack slots (SP kept), ST, and what KEYS and RND come from,
the host's queue and the cycle number of the free values. -/
structure Overlay where
  stack : Vector Addr 16 → Vector Addr 16 := id
  sound : Byte → Byte := id
  inputs : List CycleInput → List CycleInput := id
  cycle : Nat → Nat := id

namespace Overlay

/-- The state with those parts changed. -/
def on (o : Overlay) (s : State) : State :=
  { s with stack := o.stack s.stack, st := o.sound s.st, inputs := o.inputs s.inputs, cycle := o.cycle s.cycle }

variable (o : Overlay) (s : State)

theorem skipIf_on (c : Bool) : (o.on s).skipIf c = o.on (s.skipIf c) := by cases c <;> rfl

/-- A key skip under an overlay. -/
theorem keySkip_on {p : Prop} [Decidable p] (k : FaultKind) (c : Bool) :
    (if p then .next ((o.on s).raiseFault k) else .next ((o.on s).skipIf c) : Result) =
      mapNext o.on (if p then .next (s.raiseFault k) else .next (s.skipIf c)) := by
  split
  · rfl
  · exact congrArg Host.Outcome.next (skipIf_on o s c)

theorem setRegs_on (k : Nat) (bs : List Byte) : (o.on s).setRegs k bs = o.on (s.setRegs k bs) := by
  induction bs generalizing s k with
  | nil => rfl
  | cons b bs ih => exact ih (s.setReg (BitVec.ofNat 4 k) b) (k + 1)

theorem pokeAll_on (a : Nat) (bs : List Byte) : (o.on s).pokeAll a bs = o.on (s.pokeAll a bs) := by
  induction bs generalizing s a with
  | nil => rfl
  | cons b bs ih => exact ih (s.poke a b) (a + 1)

theorem readBlock_on (a n : Nat) : readBlock (o.on s) a n = readBlock s a n := by
  rw [readBlock_eq, readBlock_eq, State.peekAll_congr (s := s) (t := o.on s) (fun _ => rfl)]

theorem writeBlock_on (a : Nat) (bs : List Byte) : writeBlock (o.on s) a bs = (writeBlock s a bs).map o.on := by
  rw [writeBlock_eq, writeBlock_eq, pokeAll_on]
  split <;> rfl

theorem drawSprite_on (ox oy : Nat) (rows : List Byte) :
    drawSprite (o.on s) ox oy rows = (drawSprite s ox oy rows).map o.on := by
  unfold drawSprite
  split <;> rfl

theorem settle_on (r : Except FaultKind State) : settle (o.on s) (r.map o.on) = mapNext o.on (settle s r) := by
  cases r <;> rfl

/-- A block store under an overlay. -/
theorem settle_writeBlock_on (a : Nat) (bs : List Byte) :
    settle (o.on s) (writeBlock (o.on s).advancePc a bs) = mapNext o.on (settle s (writeBlock s.advancePc a bs)) := by
  rw [← settle_on, ← writeBlock_on]
  rfl

theorem execDrw_on (x y : Reg) (n : Nat) : execDrw x y n (o.on s) = mapNext o.on (execDrw x y n s) := by
  unfold execDrw
  rw [show (o.on s).i = s.i from rfl, readBlock_on, ← settle_on]
  cases readBlock s s.i.toNat n with
  | error k => rfl
  | ok rows => exact congrArg (settle (o.on s)) (drawSprite_on o s.advancePc _ _ rows)

theorem execLdRegs_on (x : Reg) : execLdRegs x (o.on s) = mapNext o.on (execLdRegs x s) := by
  unfold execLdRegs
  rw [show (o.on s).i = s.i from rfl, readBlock_on, ← settle_on]
  cases readBlock s s.i.toNat (x.toNat + 1) with
  | error k => rfl
  | ok bs => exact congrArg (fun t => settle (o.on s) (.ok t)) (setRegs_on o s.advancePc 0 bs)

section
variable {o s} (hstack : o.stack = id)
include hstack

theorem execRet_on : execRet (o.on s) = mapNext o.on (execRet s) := by
  have hslot : ∀ j, (o.on s).slot j = s.slot j := State.slot_congr (by simp [on, hstack])
  unfold execRet
  rw [hslot, show (o.on s).sp = s.sp from rfl]
  split
  · rfl
  · split <;> rfl

theorem execCall_on (nnn : BitVec 12) : execCall nnn (o.on s) = mapNext o.on (execCall nnn s) := by
  unfold execCall
  rw [show (o.on s).sp = s.sp from rfl]
  split
  · rfl
  · simp [mapNext, on, hstack, State.push, State.setPc, State.advancePc]

end

section
variable {o s} (hkeys : (o.on s).input.keys = s.input.keys)
include hkeys

theorem keyHeld_on (k : Nat) : (o.on s).keyHeld k = s.keyHeld k := by
  simp only [State.keyHeld, hkeys]

theorem firstHeld_on : (o.on s).firstHeld = s.firstHeld := by
  simp only [State.firstHeld, keyHeld_on hkeys]

theorem execLdVxK_on (x : Reg) : execLdVxK x (o.on s) = mapNext o.on (execLdVxK x s) := by
  unfold execLdVxK
  rw [firstHeld_on hkeys]
  cases s.firstHeld <;> rfl

theorem execSkp_on (x : Reg) : execSkp x (o.on s) = mapNext o.on (execSkp x s) := by
  unfold execSkp
  rw [keyHeld_on hkeys]
  exact keySkip_on o s _ _

theorem execSknp_on (x : Reg) : execSknp x (o.on s) = mapNext o.on (execSknp x s) := by
  unfold execSknp
  rw [keyHeld_on hkeys]
  exact keySkip_on o s _ _

end

/-- An instruction does the same under an overlay that leaves what it reads or writes of those parts: the stack slots
in RET and CALL, ST in Fx18, KEYS and RND in their readers (40_cycle_driver.md R76). -/
theorem exec_on {o : Overlay} {i : Instr} {s : State} (hstack : Part.stack ∈ i.destParts → o.stack = id)
    (hsound : Part.sound ∈ i.destParts → o.sound = id)
    (hkeys : readsKeys i = true → (o.on s).input.keys = s.input.keys)
    (hrnd : readsRnd i = true → (o.on s).rnd = s.rnd) : exec i (o.on s) = mapNext o.on (exec i s) := by
  cases i with
  | seImm | sneImm | seReg | sneReg => exact congrArg Host.Outcome.next (skipIf_on o s _)
  | ret => exact execRet_on (hstack rfl)
  | call nnn => exact execCall_on (hstack rfl) nnn
  | skp x => exact execSkp_on (hkeys rfl) x
  | sknp x => exact execSknp_on (hkeys rfl) x
  | ldVxK x => exact execLdVxK_on (hkeys rfl) x
  | rnd x kk =>
    change Host.Outcome.next ((o.on s).advancePc.setReg x ((o.on s).rnd &&& kk)) = _
    rw [hrnd rfl]
    rfl
  | ldStVx x =>
    change Host.Outcome.next ((o.on s).advancePc.setSt (s.reg x)) = .next (o.on (s.advancePc.setSt (s.reg x)))
    simp [on, hsound rfl, State.setSt, State.advancePc, State.setPc]
  | drw x y n => exact execDrw_on o s x y n
  | ldB x => exact settle_writeBlock_on o s _ _
  | stRegs x => exact settle_writeBlock_on o s _ _
  | ldRegs x => exact execLdRegs_on o s x
  | _ => rfl

end Overlay

theorem State.endCycle_withStack (s : State) (k : Vector Addr 16) :
    ({ s with stack := k } : State).endCycle = { s.endCycle with stack := k } := by
  cases hf : s.fault <;> simp [State.endCycle, hf]

end Sys2Proof.Machine
end

section
/-! SUPPORT. Two states that differ only in stack slots from SP on answer alike, and still differ only there
(10_state.md R37). -/

namespace Sys2Proof.Claims

open Sys2Proof.Machine

theorem SameButStaleSlots.fault_eq {s t : State} (h : SameButStaleSlots s t) : t.fault = s.fault := by
  obtain ⟨ht, -⟩ := h
  rw [ht]

theorem SameButStaleSlots.pc_eq {s t : State} (h : SameButStaleSlots s t) : t.pc = s.pc := by
  obtain ⟨ht, -⟩ := h
  rw [ht]

theorem SameButStaleSlots.sp_eq {s t : State} (h : SameButStaleSlots s t) : t.sp = s.sp := by
  obtain ⟨ht, -⟩ := h
  rw [ht]

theorem SameButStaleSlots.fetchable_eq {s t : State} (h : SameButStaleSlots s t) : t.fetchable = s.fetchable := by
  simp only [State.fetchable, h.pc_eq]

theorem SameButStaleSlots.fetchWord_eq {s t : State} (h : SameButStaleSlots s t) : t.fetchWord = s.fetchWord := by
  obtain ⟨ht, -⟩ := h
  rw [ht]
  rfl

theorem SameButStaleSlots.raiseFault {s t : State} (h : SameButStaleSlots s t) (k : FaultKind) :
    SameButStaleSlots (s.raiseFault k) (t.raiseFault k) := by
  obtain ⟨ht, hslot⟩ := h
  exact ⟨congrArg (State.raiseFault · k) ht, hslot⟩

theorem SameButStaleSlots.setPc {s t : State} (h : SameButStaleSlots s t) (a : Addr) :
    SameButStaleSlots (s.setPc a) (t.setPc a) := by
  obtain ⟨ht, hslot⟩ := h
  exact ⟨congrArg (State.setPc · a) ht, hslot⟩

theorem SameButStaleSlots.endCycle {s t : State} (h : SameButStaleSlots s t) :
    SameButStaleSlots s.endCycle t.endCycle := by
  obtain ⟨ht, hslot⟩ := h
  refine ⟨?_, by simpa using hslot⟩
  rw [State.endCycle_stack, ← State.endCycle_withStack, ← ht]

theorem SameButStaleSlots.execRet {s t s' : State} (h : SameButStaleSlots s t) (hs : execRet s = .next s') :
    ∃ t', execRet t = .next t' ∧ SameButStaleSlots s' t' := by
  obtain ⟨h0, rfl⟩ | ⟨h0, a, ha, rfl⟩ := execRet_cases hs
  · exact ⟨_, if_pos (h.sp_eq.trans h0), h.raiseFault _⟩
  · have hsp := h.sp_eq
    obtain ⟨ht, hslot⟩ := h
    have ha' : t.slot (t.sp - 1#8).toNat = some a := by
      rw [hsp, hslot _ (by bv_omega), ha]
    refine ⟨{ t.setPc a with sp := t.sp - 1#8 }, ?_, ?_, fun j hj => hslot j ?_⟩
    · simp only [Machine.execRet, hsp ▸ h0, if_false, ha']
    · rw [ht]
      rfl
    · change j < (s.sp - 1#8).toNat at hj
      bv_omega

/-- CALL writes the slot at SP alike in both, so that it may be read afterwards. -/
theorem SameButStaleSlots.push {s t : State} (h : SameButStaleSlots s t) (h16 : s.sp.toNat < 16) (a : Addr) :
    SameButStaleSlots (s.push a) (t.push a) := by
  have hsp := h.sp_eq
  obtain ⟨ht, hslot⟩ := h
  refine ⟨?_, fun j hj => ?_⟩
  · rw [ht]
    rfl
  · rw [State.push_sp] at hj
    rw [State.slot_push s h16, State.slot_push t (hsp ▸ h16), hsp]
    split
    · rfl
    · exact hslot j (by bv_omega)

theorem SameButStaleSlots.execCall {nnn : BitVec 12} {s t s' : State} (h : SameButStaleSlots s t)
    (hs : execCall nnn s = .next s') : ∃ t', execCall nnn t = .next t' ∧ SameButStaleSlots s' t' := by
  obtain ⟨h16, rfl⟩ | ⟨h16, rfl⟩ := execCall_cases hs
  · exact ⟨_, if_pos (h.sp_eq.symm ▸ h16), h.raiseFault _⟩
  · refine ⟨_, if_neg (h.sp_eq.symm ▸ Nat.not_le.2 h16), SameButStaleSlots.setPc ?_ _⟩
    rw [State.advancePc_pc, State.advancePc_pc, h.pc_eq]
    exact h.push h16 _

/-- An instruction keeps a difference in stale slots only, and answers alike (10_state.md R37). -/
theorem SameButStaleSlots.exec {i : Instr} {s t s' : State} (h : SameButStaleSlots s t) (hs : exec i s = .next s') :
    ∃ t', exec i t = .next t' ∧ SameButStaleSlots s' t' := by
  by_cases hp : Part.stack ∈ i.destParts
  · obtain rfl | ⟨nnn, rfl⟩ := stack_mem_destParts.1 hp
    · exact h.execRet hs
    · exact h.execCall hs
  · obtain ⟨ht, hslot⟩ := h
    obtain ⟨hsp, hkept⟩ := exec_stack_eq hs hp
    have hon := Overlay.exec_on (o := { stack := fun _ => t.stack }) (i := i) (s := s) (fun h => absurd h hp)
      (fun _ => rfl) (fun _ => rfl) (fun _ => rfl)
    rw [show Overlay.on { stack := fun _ => t.stack } s = t from ht.symm, hs] at hon
    refine ⟨_, hon, rfl, fun j hj => ?_⟩
    rw [hkept j, ← hslot j (hsp ▸ hj)]
    rfl

theorem SameButStaleSlots.execDecoded {d : Decoded} {s t s' : State} (h : SameButStaleSlots s t)
    (hs : execDecoded d s = .next s') : ∃ t', execDecoded d t = .next t' ∧ SameButStaleSlots s' t' := by
  cases d with
  | assigned i => exact h.exec hs
  | noOp =>
    cases hs
    refine ⟨_, rfl, ?_⟩
    rw [State.advancePc, State.advancePc, h.pc_eq]
    exact h.setPc _

theorem SameButStaleSlots.step {s t s' : State} (h : SameButStaleSlots s t) (hs : step s = .next s') :
    ∃ t', step t = .next t' ∧ SameButStaleSlots s' t' := by
  obtain ⟨hf, rfl⟩ | ⟨hf, hp, rfl⟩ | ⟨hf, hp, u, hu, rfl⟩ := step_cases hs
  · exact ⟨t, step_faulted (h.fault_eq ▸ hf), h⟩
  · exact ⟨_, step_unfetchable (h.fault_eq ▸ hf) (h.fetchable_eq ▸ hp), h.raiseFault _⟩
  · obtain ⟨w, hw, huw⟩ := h.execDecoded hu
    refine ⟨w.endCycle, ?_, huw.endCycle⟩
    rw [step_running (h.fault_eq ▸ hf) (h.fetchable_eq ▸ hp), h.fetchWord_eq, hw]
    rfl

end Sys2Proof.Claims
end

section
/-! SUPPORT. The host's ports: what the reset port leaves in each component, the framebuffer port cell by cell, and the
cycle port's inputs as the instructions read them. -/

open Sys2Proof.Claims

namespace Sys2Proof.Machine

/-- With nothing listed, a byte reads as its reset contents. -/
theorem peek_resetPort (s : State) (a : Nat) : (resetPort s).peek a = resetByte s.font a := rfl

theorem resetByte_outside (font : Vector Byte 80) {a : Nat} (h : ¬(0x050 ≤ a ∧ a ≤ 0x09F)) : resetByte font a = 0#8 :=
  dif_neg h

theorem resetByte_font (font : Vector Byte 80) {k : Nat} (h : k < 80) : resetByte font (0x050 + k) = font[k] := by
  rw [resetByte, dif_pos (by omega)]
  simp only [Nat.add_sub_cancel_left]

theorem resetPort_holdsResetValues (s : State) : HoldsResetValues s.font (resetPort s) := by
  refine ⟨fun a ha => ?_, fun k hk => ?_, fun a ha _ => ?_, fun x => ?_, rfl, rfl, fun j hj => ?_, rfl, rfl, rfl,
    fun x y => fbCell_clear x y, rfl⟩
  · rw [peek_resetPort, resetByte_outside _ (by omega)]
  · rw [peek_resetPort, resetByte_font _ hk]
  · rw [peek_resetPort, resetByte_outside _ (by omega)]
  · exact Vector.getElem_replicate x.isLt
  · exact (Vector.getElem?_eq_getElem hj).trans (congrArg some (Vector.getElem_replicate hj))

/-- The framebuffer port is the framebuffer laid out in rows. -/
theorem fbOut_eq (s : State) : fbOut s = s.fb.flatten.toList := by
  change (s.fb.toArray.toList.map (Array.toList ∘ Vector.toArray)).flatten = _
  simp [Vector.flatten]

theorem fbOut_cell (s : State) {x y : Nat} (hx : x < 64) (hy : y < 32) :
    (fbOut s)[y * 64 + x]? = some (s.cell x y) := by
  have hi : y * 64 + x < 32 * 64 := by omega
  have hrow : (y * 64 + x) / 64 = y := by omega
  have hcol : (y * 64 + x) % 64 = x := by omega
  rw [fbOut_eq, Vector.getElem?_toList, Vector.getElem?_eq_getElem hi, Vector.getElem_flatten]
  simp only [hrow, hcol, State.cell, fbCell, dif_pos (And.intro hy hx)]

theorem keyHeld_of_lt (s : State) {k : Nat} (h : k < 16) : s.keyHeld k = s.input.keys[k] := dif_pos h

theorem firstHeld_eq_none {s : State} (h : ∀ k, (hk : k < 16) → s.input.keys[k] = false) : s.firstHeld = none := by
  refine List.find?_eq_none.2 fun k hk => ?_
  rw [keyHeld_of_lt s (List.mem_range.1 hk), h]
  exact Bool.false_ne_true

theorem firstHeld_eq_some {s : State} {k : Nat} (hk : k < 16) (hheld : s.input.keys[k] = true)
    (hlow : ∀ j, (hj : j < k) → s.input.keys[j] = false) : s.firstHeld = some k := by
  refine List.find?_range_eq_some.2 ⟨?_, List.mem_range.2 hk, fun j hj => ?_⟩
  · rw [keyHeld_of_lt s hk, hheld]
  · rw [keyHeld_of_lt s (hj.trans hk), hlow j hj]
    rfl

/-- The state the cycle port steps from: the given input is the next one (40_cycle_driver.md R72). -/
def State.given (s : State) (keys : Keys) (rnd : Byte) : State := { s with inputs := [⟨keys, rnd⟩] }

theorem cycle_eq (keys : Keys) (rnd : Byte) (s : State) :
    cycle keys rnd s = mapNext (fun t => { t with inputs := s.inputs }) (step (s.given keys rnd)) := by
  unfold cycle State.given
  cases step { s with inputs := [⟨keys, rnd⟩] } <;> rfl

@[simp] theorem State.given_pc (s : State) (keys : Keys) (rnd : Byte) : (s.given keys rnd).pc = s.pc := rfl
@[simp] theorem State.given_reg (s : State) (keys : Keys) (rnd : Byte) (x : Reg) :
    (s.given keys rnd).reg x = s.reg x := rfl
@[simp] theorem State.given_rnd (s : State) (keys : Keys) (rnd : Byte) : (s.given keys rnd).rnd = rnd := rfl

theorem State.given_keyHeld (s : State) (keys : Keys) (rnd : Byte) {k : Nat} (h : k < 16) :
    (s.given keys rnd).keyHeld k = keys[k] := keyHeld_of_lt _ h

/-- The cycle port on a running core: the decoded instruction runs on the given input, and the host's queue is put
back. -/
theorem cycle_of_exec {keys : Keys} {rnd : Byte} {s u : State} {i : Instr} (hf : s.fault = none) (hm : MayFetch s)
    (hd : decode (wordAt s) = .assigned i) (hu : exec i (s.given keys rnd) = .next u) :
    ∃ t, cycle keys rnd s = .next t ∧ t.inputs = s.inputs ∧ t.pc = u.pc ∧ ∀ r, t.reg r = u.reg r := by
  have hp : (s.given keys rnd).fetchable = true := (fetchable_iff s).2 hm
  have hword : (s.given keys rnd).fetchWord = wordAt s := rfl
  have hstep : step (s.given keys rnd) = .next u.endCycle := by
    rw [step_running (s := s.given keys rnd) hf hp, hword, hd, execDecoded, hu]
    rfl
  exact ⟨_, cycle_of_step hstep, rfl, u.endCycle_pc, u.reg_endCycle⟩

theorem execSkp_of_le {x : Reg} {s : State} (h : (s.reg x).toNat ≤ 15) :
    execSkp x s = .next (s.skipIf (s.keyHeld (s.reg x).toNat)) := if_neg (Nat.not_lt.2 h)

theorem execSknp_of_le {x : Reg} {s : State} (h : (s.reg x).toNat ≤ 15) :
    execSknp x s = .next (s.skipIf (!s.keyHeld (s.reg x).toNat)) := if_neg (Nat.not_lt.2 h)

theorem execLdVxK_of_none {x : Reg} {s : State} (h : s.firstHeld = none) : execLdVxK x s = .next (s.setPc s.pc) := by
  rw [execLdVxK, h, State.advancePc_pc, BitVec.add_sub_cancel]

theorem execLdVxK_of_some {x : Reg} {s : State} {k : Nat} (h : s.firstHeld = some k) :
    execLdVxK x s = .next (s.advancePc.setReg x (BitVec.ofNat 8 k)) := by
  rw [execLdVxK, h]

end Sys2Proof.Machine
end

section
/-! The statements of 10_state.md, settled. -/

namespace Sys2Proof.Claims

open Sys2Proof.Machine

/-- Settles O14: every operation an instruction is made of keeps the invariant. -/
theorem stepKeepsInvariant : Obligations.StepKeepsInvariant := fun _ _ => step_keeps_inv

/-- Settles O21: the difference in stale slots is kept by every instruction, RET and CALL reading and writing only
slots that the two states share. -/
theorem staleStackSlotsAreUnobservable : Obligations.StaleStackSlotsAreUnobservable := fun _ _ _ h _ => h.step

/-- Settles O18, from the frame of every instruction. -/
theorem writersOfIndexScreenAndStack : Obligations.WritersOfIndexScreenAndStack := by
  intro s t h
  refine ⟨fun hi => ?_, fun hfb => ?_, fun j hj => ?_, fun hsp => ?_⟩
  · obtain ⟨i, u, hd, hu, -, hne⟩ :=
      step_change (g := State.i) State.raiseFault_i State.advancePc_i State.endCycle_i h hi
    exact ⟨i, hd, spelling_of_index_mem (by_contra fun hp => hne (exec_i_eq hu hp))⟩
  · obtain ⟨i, u, hd, hu, -, hne⟩ :=
      step_change (g := State.fb) State.raiseFault_fb State.advancePc_fb State.endCycle_fb h hfb
    exact ⟨i, hd, spelling_of_screen_mem (by_contra fun hp => hne (exec_fb_eq hu hp))⟩
  · obtain ⟨i, u, hd, hu, -, hne⟩ := step_change (g := (State.slot · j)) (fun s => s.slot_raiseFault j)
      (fun s => s.slot_advancePc j) (fun s => s.slot_endCycle j) h hj
    obtain ⟨hjs, nnn, rfl⟩ := exec_slot_change hu hne
    exact ⟨hjs, nnn, hd⟩
  · obtain ⟨i, u, hd, hu, -, hne⟩ :=
      step_change (g := State.sp) State.raiseFault_sp State.advancePc_sp State.endCycle_sp h hsp
    obtain rfl | ⟨nnn, rfl⟩ := stack_mem_destParts.1 (by_contra fun hp => hne (exec_stack_eq hu hp).1)
    · exact .inl hd
    · exact .inr ⟨nnn, hd⟩

/-- Settles O19, from the frame of every instruction and the flag writers' last write. -/
theorem flagIsWrittenOnlyWhereNamed : Obligations.FlagIsWrittenOnlyWhereNamed := by
  intro i s t h
  refine ⟨fun hne => writesFlag_or_namesVf (by_contra fun hr => hne (exec_reg_eq h hr)), fun hi hf => ?_⟩
  obtain ⟨k, rfl⟩ | ⟨b, hb⟩ := exec_flag hi h
  · cases hf
  · exact hb ▸ flagByte_eq b

/-- Settles O22: another ST is an overlay that no instruction but Fx18 uses. -/
theorem soundTimerIsNotReadByInstructions : Obligations.SoundTimerIsNotReadByInstructions := by
  refine ⟨fun i s b hi => ?_, fun x s b => rfl⟩
  have hsound : Part.sound ∉ i.destParts := fun h => by
    obtain ⟨x, rfl⟩ := sound_mem_destParts.1 h
    exact hi x rfl
  exact Overlay.exec_on (o := { sound := fun _ => b }) (fun _ => rfl) (fun h => absurd h hsound) (fun _ => rfl)
    (fun _ => rfl)

/-- Settles O53: each of the four instructions runs on the given input. -/
theorem cyclePortFeedsTheReadingInstructions : Obligations.CyclePortFeedsTheReadingInstructions := by
  intro s keys rnd hf hm
  refine ⟨fun x kk hd => ?rnd, fun x hx hd => ?skp, fun x hx hd => ?sknp,
    fun x hd => ⟨fun hnone => ?noKey, fun k hk hheld hlow => ?key⟩⟩
  case rnd =>
    obtain ⟨t, ht, hq, hpc, hreg⟩ := cycle_of_exec (keys := keys) (rnd := rnd) hf hm hd rfl
    refine ⟨t, ht, hq, hpc, fun b => ?_⟩
    rw [hreg, State.reg_setReg_self, State.given_rnd, BitVec.getLsbD_and]
  case skp =>
    obtain ⟨t, ht, hq, hpc, -⟩ := cycle_of_exec hf hm hd (execSkp_of_le (s := s.given keys rnd) hx)
    refine ⟨t, ht, hq, ?_⟩
    rw [hpc, State.skipIf_pc, State.given_reg, State.given_keyHeld s keys rnd (Nat.lt_succ_of_le hx), State.given_pc]
  case sknp =>
    obtain ⟨t, ht, hq, hpc, -⟩ := cycle_of_exec hf hm hd (execSknp_of_le (s := s.given keys rnd) hx)
    refine ⟨t, ht, hq, ?_⟩
    rw [hpc, State.skipIf_pc, State.given_reg, State.given_keyHeld s keys rnd (Nat.lt_succ_of_le hx), State.given_pc]
    cases keys[(s.reg x).toNat] <;> rfl
  case noKey =>
    obtain ⟨t, ht, hq, hpc, hreg⟩ :=
      cycle_of_exec hf hm hd (execLdVxK_of_none (s := s.given keys rnd) (firstHeld_eq_none hnone))
    exact ⟨t, ht, hq, hpc, hreg⟩
  case key =>
    obtain ⟨t, ht, hq, hpc, hreg⟩ :=
      cycle_of_exec hf hm hd (execLdVxK_of_some (s := s.given keys rnd) (firstHeld_eq_some hk hheld hlow))
    refine ⟨t, ht, hq, hpc, ?_⟩
    rw [hreg, State.reg_setReg_self, BitVec.toNat_ofNat]
    omega

/-- Settles O12, by the three ways a step runs. -/
theorem stepAlwaysAnswersWithLegalStackPointer : Obligations.StepAlwaysAnswersWithLegalStackPointer := by
  intro s hsp
  by_cases hf : s.fault = none
  · cases hp : s.fetchable with
    | false => exact ⟨_, step_unfetchable hf hp⟩
    | true =>
      obtain ⟨u, hu⟩ := execDecoded_answers (d := decode s.fetchWord) hsp
      exact ⟨u.endCycle, by rw [step_running hf hp, hu]; rfl⟩
  · exact ⟨s, step_faulted hf⟩

/-- Settles O13: the slot below an SP above 16 does not exist. -/
theorem retAboveSixteenStops : Obligations.RetAboveSixteenStops := by
  intro s hsp
  have h0 : s.sp ≠ 0#8 := by bv_omega
  have hslot : s.slot (s.sp - 1#8).toNat = none := Vector.getElem?_eq_none (by bv_omega)
  change execRet s = _
  rw [execRet, if_neg h0, hslot]

/-- Settles O15. The state after reset is what the reset port makes of it. -/
theorem resetAndPortsMeetInvariant : Obligations.ResetAndPortsMeetInvariant :=
  ⟨resetPort_inv State.reset, resetPort_inv, fun _ _ _ hs => hs.load⟩

/-- Settles O16. The state after reset is what the reset port makes of it. -/
theorem resetHoldsTheStatedValues : Obligations.ResetHoldsTheStatedValues := resetPort_holdsResetValues State.reset

/-- Settles O48, the framebuffer port by its row-major layout and the fault port kind by kind. -/
theorem observationPortsShowTheState : Obligations.ObservationPortsShowTheState := by
  intro s
  refine ⟨by rw [fbOut_eq, Vector.length_toList], fun x y => fbOut_cell s, rfl, ?_⟩
  unfold faultOut
  cases s.fault with
  | none => rfl
  | some k => cases k <;> rfl

/-- Settles O51, component by component. -/
theorem resetPortRestoresEveryComponent : Obligations.ResetPortRestoresEveryComponent :=
  fun s => ⟨resetPort_holdsResetValues s, rfl, rfl, rfl⟩

/-- Settles O52: the queue's head is the input, and the cycle port is a step from the given input. -/
theorem cycleReadsTheInputItIsGiven : Obligations.CycleReadsTheInputItIsGiven :=
  ⟨fun _ _ _ _ => ⟨rfl, rfl, fun _ hk => keyHeld_of_lt _ hk⟩, fun s keys rnd => cycle_eq keys rnd s⟩

end Sys2Proof.Claims
end

section
/-! SUPPORT. Who writes memory (20_memory.md R44), and where a placed word stands (R42, R43). -/

namespace Sys2Proof.Machine

open Sys2Proof.Claims

/-! ### Which bytes a step can change -/

@[simp] theorem State.peek_endCycle (s : State) (a : Nat) : s.endCycle.peek a = s.peek a :=
  State.peek_congr s.endCycle_mem s.endCycle_font a

theorem ChangesOnly.peek_eq {regs : Set Reg} {parts : Set Part} {s t : State} (h : ChangesOnly regs parts s t)
    (hp : Part.memory ∉ parts) (a : Nat) : t.peek a = s.peek a := by
  obtain ⟨-, -, hmem, -⟩ := h
  exact hmem hp a

theorem exec_peek_eq {i : Instr} {s t : State} (h : exec i s = .next t) (hp : Part.memory ∉ i.destParts) (a : Nat) :
    t.peek a = s.peek a := by
  obtain ⟨k, rfl⟩ | hframe := exec_frame h
  · rfl
  · exact hframe.peek_eq hp a

theorem memory_mem_destParts {i : Instr} :
    Part.memory ∈ i.destParts ↔ (∃ x, i = .ldB x) ∨ ∃ x, i = .stRegs x := by
  cases i <;> simp [Instr.destParts]

/-- A block write changes bytes of its block only. -/
theorem State.peek_pokeAll_change {s : State} (h : s.memWf) {a c : Nat} {bs : List Byte}
    (ha : a + bs.length ≤ Config.memSize) (hne : (s.pokeAll a bs).peek c ≠ s.peek c) :
    a ≤ c ∧ c < a + bs.length := by
  by_contra hout
  exact hne (State.peek_pokeAll_outside h ha (by omega))

/-- An instruction changes a byte only as Fx33 at I..I+2 or as Fx55 at I..I+x. -/
theorem exec_peek_change {i : Instr} {s t : State} (hwf : s.memWf) (h : exec i s = .next t) {a : Nat}
    (hne : t.peek a ≠ s.peek a) : s.i.toNat ≤ a ∧ ∃ x,
      (i = .ldB x ∧ a ≤ s.i.toNat + 2) ∨ (i = .stRegs x ∧ a ≤ s.i.toNat + x.toNat) := by
  obtain ⟨x, rfl⟩ | ⟨x, rfl⟩ := memory_mem_destParts.1 (by_contra fun hp => hne (exec_peek_eq h hp a))
  · obtain ⟨k, rfl⟩ | ⟨hin, rfl⟩ := execLdB_cases h
    · exact absurd rfl hne
    · obtain ⟨hlo, hhi⟩ := State.peek_pokeAll_change (s := s.advancePc) hwf hin hne
      exact ⟨hlo, x, .inl ⟨rfl, Nat.le_of_lt_succ hhi⟩⟩
  · obtain ⟨k, rfl⟩ | ⟨hin, rfl⟩ := execStRegs_cases h
    · exact absurd rfl hne
    · obtain ⟨hlo, hhi⟩ := State.peek_pokeAll_change (s := s.advancePc) hwf hin hne
      rw [State.length_regsUpTo] at hhi
      exact ⟨hlo, x, .inr ⟨rfl, Nat.le_of_lt_succ hhi⟩⟩

/-- A step that changes what a fault leaves alone starts without a fault, at a PC in the fetch region. -/
theorem running_of_step_change {α : Type} {g : State → α} (hraise : ∀ s k, g (s.raiseFault k) = g s) {s t : State}
    (h : step s = .next t) (hne : g t ≠ g s) : s.fault = none ∧ MayFetch s := by
  obtain ⟨-, rfl⟩ | ⟨-, -, rfl⟩ | ⟨hf, hp, -⟩ := step_cases h
  · exact absurd rfl hne
  · exact absurd (hraise s _) hne
  · exact ⟨hf, (fetchable_iff s).1 hp⟩

/-! ### The word at PC and the step that runs it -/

theorem endOutcome_eq_mapNext (r : Result) : endOutcome r = mapNext State.endCycle r := by
  cases r <;> rfl

/-- A running core in the fetch region runs the instruction at PC and ends the cycle (40_cycle_driver.md R72). -/
theorem step_of_decode {s : State} {i : Instr} (hf : s.fault = none) (hm : MayFetch s)
    (hd : decode (wordAt s) = .assigned i) : step s = mapNext State.endCycle (exec i s) := by
  rw [step_running hf ((fetchable_iff s).2 hm), endOutcome_eq_mapNext, show s.fetchWord = wordAt s from rfl, hd,
    execDecoded]

/-- `placeWord` stores the word at the PC of a running core in the fetch region, with the memory it was given (log
entry 10). -/
theorem State.placeWord_eq (s : State) (w : InstrWord) : ∃ u : State,
    u.fault = none ∧ MayFetch u ∧ u.mem = s.mem ∧ u.font = s.font ∧
      s.placeWord w = u.pokeAll u.pc.toNat (bytesOfWord w) := by
  cases hp : s.fetchable with
  | true => exact ⟨{ s with fault := none }, rfl, (fetchable_iff s).1 hp, rfl, rfl, by simp [State.placeWord, hp]⟩
  | false =>
    exact ⟨{ s.setPc 0x200#16 with fault := none }, rfl, (fetchable_iff _).1 rfl, rfl, rfl,
      by simp [State.placeWord, hp]⟩

/-- A word stored at PC in the fetch region is the word at PC (20_memory.md R43). -/
theorem wordAt_pokeAll_pc {s : State} (hwf : s.memWf) (hm : MayFetch s) (w : InstrWord) :
    wordAt (s.pokeAll s.pc.toNat (bytesOfWord w)) = w := by
  obtain ⟨-, hpc⟩ := hm
  have hin : s.pc.toNat + (bytesOfWord w).length ≤ Config.memSize := Nat.succ_le_succ hpc
  have hhigh := State.peek_pokeAll_inside hwf hin (k := 0) Nat.zero_lt_two
  have hlow := State.peek_pokeAll_inside hwf hin (k := 1) Nat.one_lt_two
  rw [Nat.add_zero] at hhigh
  rw [wordAt, State.pokeAll_pc, hhigh, hlow]
  exact Laws.word_append_bytes w

end Sys2Proof.Machine
end

section
/-! The statements of 20_memory.md, settled. -/

namespace Sys2Proof.Claims

open Sys2Proof.Machine

/-- Settles O17: a step changes bytes only by the instruction it runs, and of those only the two stores do. -/
theorem onlyStoresChangeMemory : Obligations.OnlyStoresChangeMemory := by
  intro s t a hwf h hne
  have hraise : ∀ (s : State) k, (s.raiseFault k).peek a = s.peek a := fun s => s.peek_raiseFault a
  obtain ⟨hf, hm⟩ := running_of_step_change (g := (State.peek · a)) hraise h hne
  obtain ⟨i, u, hd, hu, -, hneu⟩ := step_change (g := (State.peek · a)) hraise (fun s => s.peek_advancePc a)
    (fun s => s.peek_endCycle a) h hne
  obtain ⟨hlo, x, ⟨rfl, hhi⟩ | ⟨rfl, hhi⟩⟩ := exec_peek_change hwf hu hneu
  · exact ⟨hf, hm, hlo, x, .inl ⟨hd, hhi⟩⟩
  · exact ⟨hf, hm, hlo, x, .inr ⟨hd, hhi⟩⟩

/-- Settles O50: the word is stored at a PC that may fetch, and read back from there. -/
theorem placedWordIsTheNextToRun : Obligations.PlacedWordIsTheNextToRun := by
  intro s w hwf hw
  obtain ⟨u, hf, hm, hmem, hfont, hplace⟩ := s.placeWord_eq (tableWord 16 w)
  have hu : u.memWf := by rwa [State.memWf, hmem, hfont]
  rw [State.withFetchWord, hplace]
  have hword := wordAt_pokeAll_pc hu hm (tableWord 16 w)
  have hfault : (u.pokeAll u.pc.toNat (bytesOfWord (tableWord 16 w))).fault = none := by rwa [State.pokeAll_fault]
  have hfetch : MayFetch (u.pokeAll u.pc.toNat (bytesOfWord (tableWord 16 w))) := by rwa [MayFetch, State.pokeAll_pc]
  refine ⟨hfault, hfetch, by rw [hword, Laws.tableWord_of_lt hw], fun i hi => step_of_decode hfault hfetch ?_⟩
  rw [hword, Laws.decodeTableWord_eq_some.1 hi]

end Sys2Proof.Claims
end

section
/-! SUPPORT. A word and its fields (30_encoding.md R55), the words that spell an instruction (R65, R66), and the row of
the opcode map a word meets. -/

namespace Sys2Proof.Laws

/-! ### A word is its fields (R55) -/

theorem wordNnn_fields (w : InstrWord) : wordNnn (fieldOp w) (fieldNnn w) = w :=
  (BitVec.extractLsb'_append_extractLsb'_eq_extractLsb' rfl).trans BitVec.extractLsb'_eq_self

theorem fieldX_append_fieldKk (w : InstrWord) : (fieldX w ++ fieldKk w : BitVec 12) = fieldNnn w :=
  BitVec.extractLsb'_append_extractLsb'_eq_extractLsb' rfl

theorem fieldY_append_fieldN (w : InstrWord) : (fieldY w ++ fieldN w : BitVec 8) = fieldKk w :=
  BitVec.extractLsb'_append_extractLsb'_eq_extractLsb' rfl

theorem wordXKk_fields (w : InstrWord) : wordXKk (fieldOp w) (fieldX w) (fieldKk w) = w := by
  rw [wordXKk, fieldX_append_fieldKk]
  exact wordNnn_fields w

theorem wordXYN_fields (w : InstrWord) : wordXYN (fieldOp w) (fieldX w) (fieldY w) (fieldN w) = w := by
  rw [wordXYN, fieldY_append_fieldN]
  exact wordXKk_fields w

/-- A word whose keys are known, put together from them and its other fields. -/
theorem wordXYN_of_keys {w : InstrWord} {op n : BitVec 4} (hop : fieldOp w = op) (hn : fieldN w = n) :
    wordXYN op (fieldX w) (fieldY w) n = w := by
  rw [← hop, ← hn, wordXYN_fields]

theorem wordXKk_of_op {w : InstrWord} {op : BitVec 4} (hop : fieldOp w = op) :
    wordXKk op (fieldX w) (fieldKk w) = w := by
  rw [← hop, wordXKk_fields]

theorem wordXKk_of_keys {w : InstrWord} {op : BitVec 4} {kk : Byte} (hop : fieldOp w = op) (hkk : fieldKk w = kk) :
    wordXKk op (fieldX w) kk = w := by
  rw [← hkk, wordXKk_of_op hop]

theorem wordNnn_of_op {w : InstrWord} {op : BitVec 4} (hop : fieldOp w = op) : wordNnn op (fieldNnn w) = w := by
  rw [← hop, wordNnn_fields]

/-- The keys of `Ex9E` and `ExA1` (R62) are the low nibbles of their spellings. -/
theorem fieldN_word9E (op : BitVec 4) (x : Reg) : fieldN (wordXKk op x 0x9E#8) = 0xE#4 :=
  fieldN_wordXYN op x 0x9#4 0xE#4

theorem fieldN_wordA1 (op : BitVec 4) (x : Reg) : fieldN (wordXKk op x 0xA1#8) = 0x1#4 :=
  fieldN_wordXYN op x 0xA#4 0x1#4

theorem eq_iff_fields {w v : InstrWord} : w = v ↔
    fieldOp w = fieldOp v ∧ fieldX w = fieldX v ∧ fieldY w = fieldY v ∧ fieldN w = fieldN v := by
  refine ⟨fun h => by simp [h], fun ⟨hop, hx, hy, hn⟩ => ?_⟩
  rw [← wordXYN_fields w, hop, hx, hy, hn, wordXYN_fields]

/-- Two words agree on the bits of a mask when each of their fields does. -/
theorem and_eq_and_iff_fields {w v m : InstrWord} : w &&& m = v &&& m ↔
    fieldOp w &&& fieldOp m = fieldOp v &&& fieldOp m ∧ fieldX w &&& fieldX m = fieldX v &&& fieldX m ∧
    fieldY w &&& fieldY m = fieldY v &&& fieldY m ∧ fieldN w &&& fieldN m = fieldN v &&& fieldN m := by
  simp only [eq_iff_fields (w := w &&& m), fieldOp, fieldX, fieldY, fieldN, BitVec.extractLsb'_and]

/-- The same for a mask that is put together from fields. -/
theorem and_wordXYN_eq_iff {w v : InstrWord} {a b c d : BitVec 4} : w &&& wordXYN a b c d = v &&& wordXYN a b c d ↔
    fieldOp w &&& a = fieldOp v &&& a ∧ fieldX w &&& b = fieldX v &&& b ∧ fieldY w &&& c = fieldY v &&& c ∧
    fieldN w &&& d = fieldN v &&& d := by
  rw [and_eq_and_iff_fields, fieldOp_wordXYN, fieldX_wordXYN, fieldY_wordXYN, fieldN_wordXYN]

/-! ### Agreement outside each set of ignored bits (R66) -/

theorem agree_outside_xy {w v : InstrWord} : w &&& ~~~0x0FF0#16 = v &&& ~~~0x0FF0#16 ↔
    fieldOp w = fieldOp v ∧ fieldN w = fieldN v := by
  rw [show ~~~0x0FF0#16 = wordXYN (.allOnes 4) 0#4 0#4 (.allOnes 4) from rfl, and_wordXYN_eq_iff]
  simp only [BitVec.and_allOnes, BitVec.and_zero, true_and]

theorem agree_outside_y {w v : InstrWord} : w &&& ~~~0x00F0#16 = v &&& ~~~0x00F0#16 ↔
    fieldOp w = fieldOp v ∧ fieldX w = fieldX v ∧ fieldN w = fieldN v := by
  rw [show ~~~0x00F0#16 = wordXYN (.allOnes 4) (.allOnes 4) 0#4 (.allOnes 4) from rfl, and_wordXYN_eq_iff]
  simp only [BitVec.and_allOnes, BitVec.and_zero, true_and]

theorem agree_outside_n {w v : InstrWord} : w &&& ~~~0x000F#16 = v &&& ~~~0x000F#16 ↔
    fieldOp w = fieldOp v ∧ fieldX w = fieldX v ∧ fieldY w = fieldY v := by
  rw [show ~~~0x000F#16 = wordXYN (.allOnes 4) (.allOnes 4) (.allOnes 4) 0#4 from rfl, and_wordXYN_eq_iff]
  simp only [BitVec.and_allOnes, BitVec.and_zero, and_true]

theorem agree_everywhere {w v : InstrWord} : w &&& ~~~0x0000#16 = v &&& ~~~0x0000#16 ↔ w = v := by
  rw [show (~~~0x0000#16 : BitVec 16) = BitVec.allOnes 16 from rfl, BitVec.and_allOnes, BitVec.and_allOnes]

/-! ### The words that spell an instruction -/

/-- `w` is one of the words of `i`: it has the encoding's bits, but for those R66 calls ignored. -/
def Spells (w : InstrWord) (i : Instr) : Prop :=
  i.wf = true ∧ encode i &&& ~~~i.ignoredBits = w &&& ~~~i.ignoredBits

/-- The canonical word decodes to its instruction: the decoder finds the fields the encoder has put in. -/
theorem decode_encode {i : Instr} (hwf : i.wf = true) : decode (encode i) = .assigned i := by
  cases i with
  | cls => rfl
  | ret => rfl
  | drw x y n =>
    have hn : n < 16 := Nat.lt_succ_of_le (of_decide_eq_true hwf)
    simp [encode, decode, Nat.mod_eq_of_lt hn]
  | skp | sknp => simp [encode, decode, decodeFamilyE, fieldN_word9E, fieldN_wordA1]
  | ldReg | orReg | andReg | xorReg | addReg | sub | shr | subn | shl => simp [encode, decode, decodeFamily8]
  | ldVxDt | ldVxK | ldDtVx | ldStVx | addI | ldF | ldB | stRegs | ldRegs => simp [encode, decode, decodeFamilyF]
  | _ => simp [encode, decode]

/-- In the families 0, 8 and E, decoding is by the family's key (R60 to R62). -/
theorem decode_of_op0 {w : InstrWord} (h : fieldOp w = 0x0#4) : decode w = decodeFamily0 w := by simp [decode, h]

theorem decode_of_op8 {w : InstrWord} (h : fieldOp w = 0x8#4) : decode w = decodeFamily8 w := by simp [decode, h]

theorem decode_of_opE {w : InstrWord} (h : fieldOp w = 0xE#4) : decode w = decodeFamilyE w := by simp [decode, h]

/-- Changing ignored bits leaves the others. -/
theorem xor_ignored_and_not (v m g : BitVec 16) : (v ^^^ (m &&& g)) &&& ~~~g = v &&& ~~~g := by
  ext k hk
  cases hg : g[k] <;> simp [hg]

/-- The decoder reads no ignored bit: every word of an instruction decodes to it. -/
theorem decode_of_spells {w : InstrWord} {i : Instr} (h : Spells w i) : decode w = .assigned i := by
  obtain ⟨hwf, h⟩ := h
  cases i with
  | cls | ret =>
    obtain ⟨hop, hn⟩ := agree_outside_xy.1 h
    rw [decode_of_op0 hop.symm, decodeFamily0, ← hn]
    rfl
  | seReg | sneReg =>
    obtain ⟨hop, hx, hy⟩ := agree_outside_n.1 h
    simp only [encode, fieldOp_wordXYN, fieldX_wordXYN, fieldY_wordXYN] at hop hx hy
    simp only [decode, ← hop, ← hx, ← hy]
  | shr | shl =>
    obtain ⟨hop, hx, hn⟩ := agree_outside_y.1 h
    simp only [encode, fieldOp_wordXYN, fieldX_wordXYN, fieldN_wordXYN] at hop hx hn
    simp only [decode_of_op8 hop.symm, decodeFamily8, ← hx, ← hn]
  | skp | sknp =>
    obtain ⟨hop, hx, hn⟩ := agree_outside_y.1 h
    simp only [encode, fieldOp_wordXKk, fieldX_wordXKk, fieldN_word9E, fieldN_wordA1] at hop hx hn
    simp only [decode_of_opE hop.symm, decodeFamilyE, ← hx, ← hn]
  | _ => rw [← agree_everywhere.1 h, decode_encode hwf]

/-! ### A decoded word spells its instruction -/

theorem spells_of_eq {w : InstrWord} {i : Instr} (hwf : i.wf = true) (h : encode i = w) : Spells w i :=
  ⟨hwf, by rw [h]⟩

theorem spells_of_family0 {w : InstrWord} {i : Instr} (hop : fieldOp w = 0x0#4) (h : decodeFamily0 w = .assigned i) :
    Spells w i := by
  unfold decodeFamily0 at h
  split at h <;> cases h
  all_goals next hn => exact ⟨rfl, agree_outside_xy.2 ⟨hop.symm, hn.symm⟩⟩

/-- In 8xy6 and 8xyE, the seventh and ninth rows of the family, y is ignored (R66). -/
theorem spells_of_family8 {w : InstrWord} {i : Instr} (hop : fieldOp w = 0x8#4) (h : decodeFamily8 w = .assigned i) :
    Spells w i := by
  unfold decodeFamily8 at h
  split at h <;> cases h
  case h_7 hn | h_9 hn => exact ⟨rfl, agree_outside_y.2 (by simp [encode, hop, hn])⟩
  all_goals next hn => exact spells_of_eq rfl (wordXYN_of_keys hop hn)

theorem spells_of_familyE {w : InstrWord} {i : Instr} (hop : fieldOp w = 0xE#4) (h : decodeFamilyE w = .assigned i) :
    Spells w i := by
  unfold decodeFamilyE at h
  split at h <;> cases h
  · next hn => exact ⟨rfl, agree_outside_y.2 (by simp [encode, hop, hn, fieldN_word9E])⟩
  · next hn => exact ⟨rfl, agree_outside_y.2 (by simp [encode, hop, hn, fieldN_wordA1])⟩

theorem spells_of_familyF {w : InstrWord} {i : Instr} (hop : fieldOp w = 0xF#4) (h : decodeFamilyF w = .assigned i) :
    Spells w i := by
  unfold decodeFamilyF at h
  split at h <;> cases h
  all_goals next hkk => exact spells_of_eq rfl (wordXKk_of_keys hop hkk)

/-- Arm by arm of the decoder: the four families with a key, 5xy0 and 9xy0 with their ignored low nibble, Dxyn, then
the words of shape `nnn` and those of shape `x_kk`. -/
theorem spells_of_decode {w : InstrWord} {i : Instr} (h : decode w = .assigned i) : Spells w i := by
  unfold decode at h
  split at h
  case h_1 hop => exact spells_of_family0 hop h
  case h_9 hop => exact spells_of_family8 hop h
  case h_15 hop => exact spells_of_familyE hop h
  case h_16 =>
    -- 0xF is the one value of the top nibble that no other arm takes.
    simp only [imp_false] at *
    have hop : fieldOp w = 0xF#4 := by bv_omega
    exact spells_of_familyF hop h
  case h_6 hop | h_10 hop => cases h; exact ⟨rfl, agree_outside_n.2 (by simp [encode, hop])⟩
  case h_14 hop =>
    cases h
    refine spells_of_eq (decide_eq_true (Nat.le_of_lt_succ (fieldN w).isLt)) ?_
    rw [encode, BitVec.ofNat_toNat, BitVec.setWidth_eq, wordXYN_of_keys hop rfl]
  case h_2 hop | h_3 hop | h_11 hop | h_12 hop => cases h; exact spells_of_eq rfl (wordNnn_of_op hop)
  all_goals next hop => cases h; exact spells_of_eq rfl (wordXKk_of_op hop)

/-- A word decodes to an instruction exactly when it is one of its words. -/
theorem decode_eq_assigned_iff {w : InstrWord} {i : Instr} : decode w = .assigned i ↔ Spells w i :=
  ⟨spells_of_decode, decode_of_spells⟩

/-! ### The unassigned words (R64) -/

theorem decodeFamily0_eq_noOp {w : InstrWord} : decodeFamily0 w = .noOp ↔ fieldN w ∉ [0x0#4, 0xE#4] := by
  unfold decodeFamily0
  split <;> simp_all

/-- The low nibbles without a row in family 8 (R61, R64). -/
theorem unassigned8_iff : ∀ n : BitVec 4,
    n ∈ [0x8#4, 0x9#4, 0xA#4, 0xB#4, 0xC#4, 0xD#4, 0xF#4] ↔
    n ∉ [0x0#4, 0x1#4, 0x2#4, 0x3#4, 0x4#4, 0x5#4, 0x6#4, 0x7#4, 0xE#4] := by decide

theorem decodeFamily8_eq_noOp {w : InstrWord} :
    decodeFamily8 w = .noOp ↔ fieldN w ∈ [0x8#4, 0x9#4, 0xA#4, 0xB#4, 0xC#4, 0xD#4, 0xF#4] := by
  rw [unassigned8_iff]
  unfold decodeFamily8
  split <;> simp_all

theorem decodeFamilyE_eq_noOp {w : InstrWord} : decodeFamilyE w = .noOp ↔ fieldN w ∉ [0xE#4, 0x1#4] := by
  unfold decodeFamilyE
  split <;> simp_all

theorem decodeFamilyF_eq_noOp {w : InstrWord} : decodeFamilyF w = .noOp ↔
    fieldKk w ∉ [0x07#8, 0x0A#8, 0x15#8, 0x18#8, 0x1E#8, 0x29#8, 0x33#8, 0x55#8, 0x65#8] := by
  unfold decodeFamilyF
  split <;> simp_all

/-- Exactly these words are unassigned: in the families 0, 8, E and F, those whose key has no row (R60 to R64). -/
theorem decode_eq_noOp_iff {w : InstrWord} : decode w = .noOp ↔
    (fieldOp w = 0x0#4 ∧ fieldN w ∉ [0x0#4, 0xE#4]) ∨
    (fieldOp w = 0x8#4 ∧ fieldN w ∈ [0x8#4, 0x9#4, 0xA#4, 0xB#4, 0xC#4, 0xD#4, 0xF#4]) ∨
    (fieldOp w = 0xE#4 ∧ fieldN w ∉ [0xE#4, 0x1#4]) ∨
    (fieldOp w = 0xF#4 ∧ fieldKk w ∉ [0x07#8, 0x0A#8, 0x15#8, 0x18#8, 0x1E#8, 0x29#8, 0x33#8, 0x55#8, 0x65#8]) := by
  rw [← decodeFamily0_eq_noOp, ← decodeFamily8_eq_noOp, ← decodeFamilyE_eq_noOp, ← decodeFamilyF_eq_noOp]
  unfold decode
  split
  case h_16 =>
    simp only [imp_false] at *
    have hop : fieldOp w = 0xF#4 := by bv_omega
    simp [hop]
  all_goals next hop => simp [hop]

/-! ### The row of the opcode map a word meets (R65) -/

/-- The encoding of every instruction stands in its own row. -/
theorem CanonicalSpelling.statement : ∀ i : Instr, CanonicalSpelling.Statement i
  | .cls => CanonicalSpelling.cls
  | .ret => CanonicalSpelling.ret
  | .jp nnn => CanonicalSpelling.jp nnn
  | .call nnn => CanonicalSpelling.call nnn
  | .seImm x kk => CanonicalSpelling.seImm x kk
  | .sneImm x kk => CanonicalSpelling.sneImm x kk
  | .seReg x y => CanonicalSpelling.seReg x y
  | .ldImm x kk => CanonicalSpelling.ldImm x kk
  | .addImm x kk => CanonicalSpelling.addImm x kk
  | .ldReg x y => CanonicalSpelling.ldReg x y
  | .orReg x y => CanonicalSpelling.orReg x y
  | .andReg x y => CanonicalSpelling.andReg x y
  | .xorReg x y => CanonicalSpelling.xorReg x y
  | .addReg x y => CanonicalSpelling.addReg x y
  | .sub x y => CanonicalSpelling.sub x y
  | .shr x => CanonicalSpelling.shr x
  | .subn x y => CanonicalSpelling.subn x y
  | .shl x => CanonicalSpelling.shl x
  | .sneReg x y => CanonicalSpelling.sneReg x y
  | .ldI nnn => CanonicalSpelling.ldI nnn
  | .jpV0 nnn => CanonicalSpelling.jpV0 nnn
  | .rnd x kk => CanonicalSpelling.rnd x kk
  | .drw x y n => CanonicalSpelling.drw x y n
  | .skp x => CanonicalSpelling.skp x
  | .sknp x => CanonicalSpelling.sknp x
  | .ldVxDt x => CanonicalSpelling.ldVxDt x
  | .ldVxK x => CanonicalSpelling.ldVxK x
  | .ldDtVx x => CanonicalSpelling.ldDtVx x
  | .ldStVx x => CanonicalSpelling.ldStVx x
  | .addI x => CanonicalSpelling.addI x
  | .ldF x => CanonicalSpelling.ldF x
  | .ldB x => CanonicalSpelling.ldB x
  | .stRegs x => CanonicalSpelling.stRegs x
  | .ldRegs x => CanonicalSpelling.ldRegs x

/-- No row's mask covers a bit its instructions ignore. -/
theorem not_ignoredBits_and_mask {i : Instr} {r : OpcodeRow} (hr : r ∈ opcodeRows) (hs : r.spelling = i.spelling) :
    ~~~i.ignoredBits &&& r.mask = r.mask := by
  cases i with
  | cls | ret | seReg | sneReg | shr | shl | skp | sknp =>
    revert r
    simp only [Instr.spelling, Instr.ignoredBits]
    decide
  | _ => rw [Instr.ignoredBits, BitVec.not_zero, BitVec.allOnes_and]

/-- Two rows that share a word agree on the key bits they share; the rows of R65 do so only when equal. -/
theorem row_eq_of_compatible : ∀ r ∈ opcodeRows, ∀ r' ∈ opcodeRows,
    r.pattern &&& r'.mask = r'.pattern &&& r.mask → r = r' := by decide

theorem row_eq_of_meets {w : InstrWord} {r r' : OpcodeRow} (hr : r ∈ opcodeRows) (hr' : r' ∈ opcodeRows)
    (h : w &&& r.mask = r.pattern) (h' : w &&& r'.mask = r'.pattern) : r = r' :=
  row_eq_of_compatible r hr r' hr' (by rw [← h, ← h', BitVec.and_assoc, BitVec.and_assoc, BitVec.and_comm r.mask])

theorem row_eq_of_spelling : ∀ r ∈ opcodeRows, ∀ r' ∈ opcodeRows, r.spelling = r'.spelling → r = r' := by decide

/-- A decoded word meets the row of its instruction, as the canonical word does. -/
theorem exists_row_of_decode {w : InstrWord} {i : Instr} (h : decode w = .assigned i) :
    ∃ r ∈ opcodeRows, r.spelling = i.spelling ∧ w &&& r.mask = r.pattern := by
  obtain ⟨r, hr, hs, hmeets⟩ := CanonicalSpelling.statement i
  obtain ⟨-, hagree⟩ := decode_eq_assigned_iff.1 h
  refine ⟨r, hr, hs, ?_⟩
  rw [← hmeets, ← not_ignoredBits_and_mask hr hs, ← BitVec.and_assoc, ← BitVec.and_assoc, hagree]

/-- What makes a word a no-op are its family and, in the families 0, 8, E and F, its key. -/
theorem decode_eq_noOp_congr {w v : InstrWord} (hop : fieldOp w = fieldOp v)
    (hn : fieldOp v ∈ [0x0#4, 0x8#4, 0xE#4] → fieldN w = fieldN v) (hkk : fieldOp v = 0xF#4 → fieldKk w = fieldKk v)
    (h : decode w = .noOp) : decode v = .noOp := by
  rw [decode_eq_noOp_iff, hop] at h
  rw [decode_eq_noOp_iff]
  obtain ⟨h0, hkey⟩ | ⟨h8, hkey⟩ | ⟨hE, hkey⟩ | ⟨hF, hkey⟩ := h
  · exact .inl ⟨h0, hn (by simp [h0]) ▸ hkey⟩
  · exact .inr (.inl ⟨h8, hn (by simp [h8]) ▸ hkey⟩)
  · exact .inr (.inr (.inl ⟨hE, hn (by simp [hE]) ▸ hkey⟩))
  · exact .inr (.inr (.inr ⟨hF, hkk hF ▸ hkey⟩))

/-- Every row fixes the family and the family's key, at a word that decodes to an instruction. -/
theorem row_fixes_keys : ∀ r ∈ opcodeRows, fieldOp r.mask = BitVec.allOnes 4 ∧
    (fieldOp r.pattern ∈ [0x0#4, 0x8#4, 0xE#4] → fieldN r.mask = BitVec.allOnes 4) ∧
    (fieldOp r.pattern = 0xF#4 → fieldKk r.mask = BitVec.allOnes 8) ∧ decode r.pattern ≠ .noOp := by decide

/-- A word that meets a row is no no-op. -/
theorem decode_ne_noOp_of_meets {w : InstrWord} {r : OpcodeRow} (hr : r ∈ opcodeRows) (h : w &&& r.mask = r.pattern) :
    decode w ≠ .noOp := by
  obtain ⟨hop, hn, hkk, hassigned⟩ := row_fixes_keys r hr
  exact fun hw => hassigned (decode_eq_noOp_congr (fieldOp_of_mask hop h) (fun hf => fieldN_of_mask (hn hf) h)
    (fun hf => fieldKk_of_mask (hkk hf) h) hw)

end Sys2Proof.Laws

namespace Sys2Proof.Machine

open Sys2Proof.Claims

/-- A cycle on an unassigned word: the advance and the end of a cycle (R64). -/
theorem step_of_noOp {s : State} (hf : s.fault = none) (hm : MayFetch s) (hd : decode (wordAt s) = .noOp) :
    step s = .next s.advancePc.endCycle := by
  rw [step_running hf ((fetchable_iff s).2 hm), show s.fetchWord = wordAt s from rfl, hd]
  rfl

end Sys2Proof.Machine
end

section
/-! The statements of 30_encoding.md, settled. -/

namespace Sys2Proof.Claims

open Sys2Proof.Machine Sys2Proof.Laws

/-- Settles O2: the decoder finds the fields that the encoder has put in. -/
theorem decodeOfEncodeIsTheInstruction : Obligations.DecodeOfEncodeIsTheInstruction := fun _ => decode_encode

/-- Settles O3. A decoded word meets its instruction's row, no other row shares the word, and no row's words are
no-ops. -/
theorem everyWordDecodesByTheOpcodeMap : Obligations.EveryWordDecodesByTheOpcodeMap := by
  refine ⟨rfl, fun w r hr => ⟨fun hmeets => ?decodes, fun ⟨i, hd, hs⟩ => ?meets⟩,
    fun _ _ hr _ hr' => row_eq_of_meets hr hr',
    fun w => ⟨fun hd r hr hmeets => decode_ne_noOp_of_meets hr hmeets hd, fun hnone => ?noRow⟩⟩
  case decodes =>
    cases hd : decode w with
    | noOp => exact absurd hd (decode_ne_noOp_of_meets hr hmeets)
    | assigned i =>
      obtain ⟨r', hr', hs, hmeets'⟩ := exists_row_of_decode hd
      exact ⟨i, rfl, by rw [row_eq_of_meets hr hr' hmeets hmeets', hs]⟩
  case meets =>
    obtain ⟨r', hr', hs', hmeets⟩ := exists_row_of_decode hd
    rwa [row_eq_of_spelling r hr r' hr' (hs.symm.trans hs'.symm)]
  case noRow =>
    cases hd : decode w with
    | noOp => rfl
    | assigned i =>
      obtain ⟨r, hr, -, hmeets⟩ := exists_row_of_decode hd
      exact absurd hmeets (hnone r hr)

/-- Settles O4: a word decodes to an instruction exactly when it agrees with the encoding outside the ignored bits. -/
theorem onlyIgnoredBitsAreDropped : Obligations.OnlyIgnoredBitsAreDropped := by
  refine ⟨fun i hwf m => decode_eq_assigned_iff.2 ⟨hwf, ?_⟩, fun w i => decode_eq_assigned_iff.1,
    fun i => by cases i <;> rfl⟩
  exact (xor_ignored_and_not _ m _).symm

/-- Settles O6, the unassigned words family by family, and the cycle by what its two updates leave alone. -/
theorem unassignedWordOnlyAdvances : Obligations.UnassignedWordOnlyAdvances := by
  refine ⟨fun w => decode_eq_noOp_iff, fun s hf hm hd => ⟨_, step_of_noOp hf hm hd, ?_⟩⟩
  rw [State.endCycle_running (s := s.advancePc) hf]
  exact ⟨rfl, toNat_tick s.dt, toNat_tick s.st, rfl, rfl, rfl⟩

/-- Settles O1: each word is decoded. -/
theorem specWordsDecodeAsSpelled : Obligations.SpecWordsDecodeAsSpelled := by
  unfold Obligations.SpecWordsDecodeAsSpelled
  decide

end Sys2Proof.Claims
end

section
/-! SUPPORT. One cycle of a running core: a fault discards what the cycle did, no fault ticks the timers, and the core's
components do not depend on the host's queue or the cycle number beyond KEYS and RND (40_cycle_driver.md). -/

open Sys2Proof.Claims

namespace Sys2Proof.Machine

/-! ### What a cycle of a running core leaves -/

theorem ChangesOnly.fault_eq {regs : Set Reg} {parts : Set Part} {s t : State} (h : ChangesOnly regs parts s t) :
    t.fault = s.fault := by
  obtain ⟨-, -, -, -, -, -, -, hfault, -⟩ := h
  exact hfault

theorem ChangesOnly.dt_eq {regs : Set Reg} {parts : Set Part} {s t : State} (h : ChangesOnly regs parts s t)
    (hp : Part.delay ∉ parts) : t.dt = s.dt := by
  obtain ⟨-, -, -, -, hdt, -⟩ := h
  exact hdt hp

theorem ChangesOnly.st_eq {regs : Set Reg} {parts : Set Part} {s t : State} (h : ChangesOnly regs parts s t)
    (hp : Part.sound ∉ parts) : t.st = s.st := by
  obtain ⟨-, -, -, -, -, hst, -⟩ := h
  exact hst hp

theorem exec_dt_eq {i : Instr} {s t : State} (h : exec i s = .next t) (hp : Part.delay ∉ i.destParts) :
    t.dt = s.dt := by
  obtain ⟨k, rfl⟩ | hframe := exec_frame h
  · rfl
  · exact hframe.dt_eq hp

theorem exec_st_eq {i : Instr} {s t : State} (h : exec i s = .next t) (hp : Part.sound ∉ i.destParts) :
    t.st = s.st := by
  obtain ⟨k, rfl⟩ | hframe := exec_frame h
  · rfl
  · exact hframe.st_eq hp

theorem delay_mem_destParts {i : Instr} : Part.delay ∈ i.destParts ↔ ∃ x, i = .ldDtVx x := by
  cases i <;> simp [Instr.destParts]

/-- Only Fx15 writes DT before the end of the cycle. -/
theorem execDecoded_dt_eq {d : Decoded} {s t : State} (h : execDecoded d s = .next t)
    (hd : ∀ x, d ≠ .assigned (.ldDtVx x)) : t.dt = s.dt := by
  cases d with
  | assigned i =>
    refine exec_dt_eq h fun hp => ?_
    obtain ⟨x, rfl⟩ := delay_mem_destParts.1 hp
    exact hd x rfl
  | noOp => cases h; rfl

/-- Only Fx18 writes ST before the end of the cycle. -/
theorem execDecoded_st_eq {d : Decoded} {s t : State} (h : execDecoded d s = .next t)
    (hd : ∀ x, d ≠ .assigned (.ldStVx x)) : t.st = s.st := by
  cases d with
  | assigned i =>
    refine exec_st_eq h fun hp => ?_
    obtain ⟨x, rfl⟩ := sound_mem_destParts.1 hp
    exact hd x rfl
  | noOp => cases h; rfl

/-- What a decoded word does to FAULT: it raises a fault on the state it was given, or leaves FAULT alone. -/
theorem execDecoded_fault {d : Decoded} {s t : State} (h : execDecoded d s = .next t) :
    (∃ k, t = s.raiseFault k) ∨ t.fault = s.fault := by
  cases d with
  | assigned i => exact (exec_frame h).imp_right ChangesOnly.fault_eq
  | noOp => cases h; exact .inr rfl

/-- A cycle of a running core faults and commits nothing else (R79), or what the word at PC does raises no fault and
both timers tick after it (R77). -/
theorem step_running_cases {s t : State} (hf : s.fault = none) (h : step s = .next t) :
    (∃ k, t = s.raiseFault k) ∨
    (t.fault = none ∧ ∃ u, execDecoded (decode (wordAt s)) s = .next u ∧ t.dt = tick u.dt ∧ t.st = tick u.st) := by
  obtain ⟨hne, -⟩ | ⟨-, -, rfl⟩ | ⟨-, -, u, hu, rfl⟩ := step_cases h
  · exact absurd hf hne
  · exact .inl ⟨_, rfl⟩
  · obtain ⟨k, rfl⟩ | hfault := execDecoded_fault hu
    · exact .inl ⟨k, rfl⟩
    · have hrun : u.fault = none := hfault.trans hf
      rw [State.endCycle_running hrun]
      exact .inr ⟨hrun, u, hu, rfl, rfl⟩

/-! ### The core's components do not depend on the queue and the cycle number -/

theorem mapNext_mapNext (f g : State → State) (r : Result) : mapNext f (mapNext g r) = mapNext (f ∘ g) r := by
  cases r <;> rfl

theorem mapNext_eq_next {f : State → State} {r : Result} {t : State} (h : mapNext f r = .next t) :
    ∃ u, r = .next u ∧ f u = t := by
  cases r <;> cases h
  exact ⟨_, rfl, rfl⟩

/-- The end of a cycle makes the core's components from the core's components. -/
theorem coreOf_endCycle (s : State) : coreOf s.endCycle = coreOf (coreOf s).endCycle := by
  by_cases hf : s.fault = none
  · rw [State.endCycle_running hf, State.endCycle_running (s := coreOf s) hf]
    rfl
  · rw [State.endCycle_faulted hf, State.endCycle_faulted (s := coreOf s) hf]
    rfl

namespace Overlay

section
variable {o : Overlay} (hstack : o.stack = id) (hsound : o.sound = id)
include hstack hsound

theorem coreOf_on (s : State) : coreOf (o.on s) = coreOf s := by
  simp [coreOf, on, hstack, hsound]

theorem execDecoded_on {s : State} (d : Decoded) (hinput : (o.on s).input = s.input) :
    execDecoded d (o.on s) = mapNext o.on (execDecoded d s) := by
  cases d with
  | assigned i =>
    exact exec_on (fun _ => hstack) (fun _ => hsound) (fun _ => congrArg CycleInput.keys hinput)
      (fun _ => congrArg CycleInput.rnd hinput)
  | noOp => rfl

/-- Another queue and cycle number with the same coming input lead to the same core (40_cycle_driver.md R80). -/
theorem coreOf_step_on {s : State} (hinput : (o.on s).input = s.input) :
    mapNext coreOf (step (o.on s)) = mapNext coreOf (step s) := by
  have hcore := coreOf_on hstack hsound
  by_cases hf : s.fault = none
  · cases hp : s.fetchable with
    | false =>
      rw [step_unfetchable hf hp, step_unfetchable (s := o.on s) hf hp]
      exact congrArg Host.Outcome.next (hcore (s.raiseFault .fetchOutOfRange))
    | true =>
      have hend : ∀ u : State, coreOf (o.on u).endCycle = coreOf u.endCycle := fun u => by
        rw [coreOf_endCycle, hcore, ← coreOf_endCycle]
      rw [step_running hf hp, step_running (s := o.on s) hf hp, show (o.on s).fetchWord = s.fetchWord from rfl,
        execDecoded_on hstack hsound _ hinput]
      simp only [endOutcome_eq_mapNext, mapNext_mapNext, Function.comp_def, hend]
  · rw [step_faulted hf, step_faulted (s := o.on s) hf]
    exact congrArg Host.Outcome.next (hcore s)

end

end Overlay

/-- With the same core and the same given input, the states the cycle port steps from differ in the cycle number. -/
theorem given_eq_on_given {s s' : State} (h : coreOf s' = coreOf s) (keys : Keys) (rnd : Byte) :
    s'.given keys rnd = Overlay.on { cycle := fun _ => s'.cycle } (s.given keys rnd) := by
  change { coreOf s' with inputs := [⟨keys, rnd⟩], cycle := s'.cycle } = _
  rw [h]
  rfl

theorem coreOf_cycle (keys : Keys) (rnd : Byte) (s : State) :
    mapNext coreOf (cycle keys rnd s) = mapNext coreOf (step (s.given keys rnd)) := by
  rw [cycle_eq, mapNext_mapNext]
  rfl

/-- The cycle port's result in the core's components is made of those components and the given input. -/
theorem coreOf_cycle_congr {s s' : State} (h : coreOf s' = coreOf s) (keys : Keys) (rnd : Byte) :
    mapNext coreOf (cycle keys rnd s') = mapNext coreOf (cycle keys rnd s) := by
  rw [coreOf_cycle, coreOf_cycle, given_eq_on_given h]
  exact Overlay.coreOf_step_on rfl rfl rfl

end Sys2Proof.Machine
end

section
/-! The statements of 40_cycle_driver.md, settled. -/

namespace Sys2Proof.Claims

open Sys2Proof.Machine

/-- Settles O9: a fault is raised on the state at the start of the cycle, by the fetch or by the instruction. -/
theorem faultingCycleCommitsNothing : Obligations.FaultingCycleCommitsNothing := by
  intro s t hf h hfault
  obtain hk | ⟨hnone, -⟩ := step_running_cases hf h
  · exact hk
  · exact absurd hnone hfault

/-- Settles O11: the tick takes one off what the instruction leaves in a timer, and only Fx15 and Fx18 write one. -/
theorem timersTickInEveryFaultFreeCycle : Obligations.TimersTickInEveryFaultFreeCycle := by
  intro s t hf h hnone
  obtain ⟨k, rfl⟩ | ⟨-, u, hu, hdt, hst⟩ := step_running_cases hf h
  · cases hnone
  · rw [hdt, hst, toNat_tick, toNat_tick]
    refine ⟨fun x hd => ?_, fun hd => ?_, fun x hd => ?_, fun hd => ?_⟩
    · rw [hd] at hu
      cases hu
      rfl
    · rw [execDecoded_dt_eq hu hd]
    · rw [hd] at hu
      cases hu
      rfl
    · rw [execDecoded_st_eq hu hd]

/-- Settles O20: another queue is an overlay that only the readers of what it changes can tell. -/
theorem inputsAreReadOnlyWhereNamed : Obligations.InputsAreReadOnlyWhereNamed := by
  intro i s inp inp' rest hkeys hrnd
  exact Overlay.exec_on (o := { inputs := fun _ => inp' :: rest }) (s := { s with inputs := inp :: rest })
    (fun _ => rfl) (fun _ => rfl) (fun hreads => hkeys.resolve_left (ne_false_of_eq_true hreads))
    (fun hreads => hrnd.resolve_left (ne_false_of_eq_true hreads))

/-- Settles O47: the two cycles run from states that differ only in the cycle number, which the given input hides. -/
theorem cycleDependsOnlyOnStateAndInputs : Obligations.CycleDependsOnlyOnStateAndInputs := by
  intro keys rnd s s' t hcore h
  have hcycle := coreOf_cycle_congr hcore keys rnd
  rw [h] at hcycle
  exact mapNext_eq_next hcycle

/-- Settles O5: the running step, and the end of a cycle without and with a fault. -/
theorem stepRunsTheDecodedInstruction : Obligations.StepRunsTheDecodedInstruction :=
  ⟨fun _ _ => step_of_decode, fun _ => State.endCycle_running, fun _ => State.endCycle_faulted⟩

end Sys2Proof.Claims
end

section
/-! SUPPORT. The control transfers (41_control_flow.md): the words of a row keyed by its top nibble, jump targets as
integers, and what RET, CALL and a skip leave in the next state. -/

namespace Sys2Proof.Machine

/-! ### Jump targets -/

@[simp] theorem toNat_zextAddr (nnn : BitVec 12) : (zextAddr nnn).toNat = nnn.toNat :=
  BitVec.toNat_setWidth_of_le (by decide)

@[simp] theorem toNat_zextByte (b : Byte) : (zextByte b).toNat = b.toNat := BitVec.toNat_setWidth_of_le (by decide)

/-- The sum of R88 fits 16 bits. -/
theorem toNat_jpV0_target (b : Byte) (nnn : BitVec 12) :
    (zextByte b + zextAddr nnn).toNat = b.toNat + nnn.toNat := by
  have hb := b.isLt
  have hn := nnn.isLt
  rw [BitVec.toNat_add_of_lt (by simp only [toNat_zextByte, toNat_zextAddr]; omega), toNat_zextByte, toNat_zextAddr]

end Sys2Proof.Machine

namespace Sys2Proof.Claims

open Sys2Proof.Machine Sys2Proof.Laws

/-! ### The words of a row (30_encoding.md R65) -/

/-- A row whose mask is the top nibble holds when the decoder reads its instruction from that nibble alone (R59). -/
theorem rowDecodes_of_op {p : BitVec 16} {f : BitVec 16 → Instr}
    (h : ∀ w, fieldOp w = p.extractLsb' 12 4 → decode w = .assigned (f w)) : RowDecodes 0xF000#16 p f :=
  fun w hw => h w (fieldOp_of_mask rfl hw)

theorem rowDecodes_ret : RowDecodes 0xF00F#16 0x000E#16 fun _ => .ret := by
  intro w hw
  rw [decode_of_op0 (fieldOp_of_mask rfl hw), decodeFamily0, fieldN_of_mask rfl hw]
  rfl

/-! ### What a control transfer leaves in the next state -/

/-- RET with a return address on the stack pops it (R81). -/
theorem runs_ret {s : State} (hpos : 0 < s.sp.toNat) (hle : s.sp.toNat ≤ 16) : Runs .ret s ∅ {.stack} fun t =>
    t.sp.toNat = s.sp.toNat - 1 ∧ s.slot (s.sp.toNat - 1) = some t.pc ∧ ∀ j, t.slot j = s.slot j := by
  obtain ⟨t, ht⟩ := exec_answers (i := .ret) fun _ => hle
  obtain ⟨h0, -⟩ | ⟨-, a, ha, rfl⟩ := execRet_cases ht
  · exact absurd (congrArg BitVec.toNat h0) hpos.ne'
  · have hsp : (s.sp - 1#8).toNat = s.sp.toNat - 1 := by bv_omega
    exact ⟨_, ht, ⟨hsp, hsp ▸ ha, fun _ => rfl⟩,
      (ChangesOnly.setPc _ _ s a).trans (.setSp _ (Set.mem_singleton _) _ _)⟩

/-- CALL with a free slot pushes the advanced PC and jumps (R83). -/
theorem runs_call {s : State} (nnn : BitVec 12) (hlt : s.sp.toNat < 16) : Runs (.call nnn) s ∅ {.stack} fun t =>
    t.slot s.sp.toNat = some (s.pc + 2#16) ∧ (∀ j, j ≠ s.sp.toNat → t.slot j = s.slot j) ∧
    t.sp.toNat = s.sp.toNat + 1 ∧ t.pc.toNat = nnn.toNat := by
  have hslot := State.slot_push s hlt s.advancePc.pc
  have hsp : (s.sp + 1#8).toNat = s.sp.toNat + 1 := by bv_omega
  exact ⟨_, if_neg (Nat.not_le.2 hlt),
    ⟨(hslot _).trans (if_pos rfl), fun j hj => (hslot j).trans (if_neg hj), hsp, toNat_zextAddr nnn⟩,
    (ChangesOnly.push _ (Set.mem_singleton _) s _).trans (.setPc _ _ _ _)⟩

theorem beq_eq_decide_toNat {n : Nat} (a b : BitVec n) : (a == b) = decide (a.toNat = b.toNat) :=
  decide_eq_decide.2 BitVec.toNat_inj.symm

section
variable {i : Instr} {s : State} {n : Nat} {a b : BitVec n}

/-- An instruction that skips when its operands are equal (R84, R86). -/
theorem runs_skip_of_eq (h : exec i s = .next (s.skipIf (a == b))) :
    Runs i s ∅ ∅ fun t => t.pc = if a.toNat = b.toNat then s.pc + 4#16 else s.pc + 2#16 := by
  refine ⟨_, h, (s.skipIf_pc _).trans ?_, .skipIf _ _ s _⟩
  rw [beq_eq_decide_toNat]
  simp only [decide_eq_true_eq]

/-- An instruction that skips when its operands differ (R85, R87). -/
theorem runs_skip_of_ne (h : exec i s = .next (s.skipIf (a != b))) :
    Runs i s ∅ ∅ fun t => t.pc = if a.toNat = b.toNat then s.pc + 2#16 else s.pc + 4#16 := by
  refine ⟨_, h, (s.skipIf_pc _).trans ?_, .skipIf _ _ s _⟩
  rw [bne, beq_eq_decide_toNat]
  simp only [Bool.not_eq_true', decide_eq_false_iff_not, ite_not]

end

end Sys2Proof.Claims
end

section
/-! The statements of 41_control_flow.md, settled. -/

namespace Sys2Proof.Claims

open Sys2Proof.Machine Sys2Proof.Laws

/-- Settles O23: SP = 0 is the check of RET, and from 1 to 16 the slot below SP exists. -/
theorem retPopsReturnAddress : Obligations.RetPopsReturnAddress :=
  ⟨rowDecodes_ret, fun _ => ⟨fun h0 => if_pos (BitVec.eq_of_toNat_eq h0), runs_ret⟩⟩

/-- Settles O24: both targets are sums of widened operands that fit 16 bits. -/
theorem jumpsGoToAbsoluteTargets : Obligations.JumpsGoToAbsoluteTargets := by
  refine ⟨rowDecodes_of_op fun w hop => ?jp, rowDecodes_of_op fun w hop => ?jpV0,
    fun s nnn => ⟨?runsJp, ?runsJpV0⟩⟩
  case jp | jpV0 =>
    rw [decode, hop]
    rfl
  case runsJp => exact ⟨_, rfl, toNat_zextAddr nnn, .setPc _ _ s _⟩
  case runsJpV0 => exact ⟨_, rfl, toNat_jpV0_target _ nnn, .setPc _ _ s _⟩

/-- Settles O25: SP against 16 is the check of CALL, and below 16 the slot at SP takes the advanced PC. -/
theorem callPushesReturnAddress : Obligations.CallPushesReturnAddress := by
  refine ⟨rowDecodes_of_op fun w hop => ?_, fun s nnn => ⟨fun hfull => if_pos hfull, runs_call nnn⟩⟩
  rw [decode, hop]
  rfl

/-- Settles O26: each skip is the shared one, on equal or on different operands. -/
theorem skipsAddTwoWhenTheComparisonHolds : Obligations.SkipsAddTwoWhenTheComparisonHolds := by
  refine ⟨rowDecodes_of_op fun w hop => ?seImm, rowDecodes_of_op fun w hop => ?sneImm,
    rowDecodes_of_op fun w hop => ?seReg, rowDecodes_of_op fun w hop => ?sneReg,
    fun s x y kk => ⟨runs_skip_of_eq rfl, runs_skip_of_ne rfl, runs_skip_of_eq rfl, runs_skip_of_ne rfl⟩⟩
  case seImm | sneImm | seReg | sneReg =>
    rw [decode, hop]
    rfl

/-- Settles O27: RET pops from the slot that CALL has pushed to. -/
theorem callThenReturnComesBack : Obligations.CallThenReturnComesBack := by
  intro s nnn hlt
  obtain ⟨t, hcall, ⟨hpushed, -, hup, -⟩, hframeCall⟩ := runs_call nnn hlt
  obtain ⟨u, hret, ⟨hdown, hpopped, -⟩, hframeRet⟩ := runs_ret (s := t) (by omega) (by omega)
  rw [hup, Nat.add_sub_cancel] at hdown hpopped
  have hpc : u.pc = s.pc + 2#16 := Option.some.inj (hpopped.symm.trans hpushed)
  exact ⟨t, u, hcall, hret, hpc, BitVec.eq_of_toNat_eq hdown, hframeCall.trans hframeRet⟩

end Sys2Proof.Claims
end

section
/-! SUPPORT. The 8-bit ALU (42_alu.md): the words of family 8, the flags and the wrapped difference as integers, and what
an instruction that writes one register, or one register and then VF, leaves in the next state. -/

namespace Sys2Proof.Machine

/-! ### Flags as integers (R89) -/

theorem toNat_flagByte (c : Bool) : (flagByte c).toNat = c.toNat := by
  cases c <;> rfl

theorem toNat_flagByte_decide (p : Prop) [Decidable p] : (flagByte (decide p)).toNat = if p then 1 else 0 := by
  rw [toNat_flagByte, Bool.toNat, Bool.cond_decide]

theorem toNat_flagByte_carry (a b : Byte) :
    (flagByte (carry a b)).toNat = if a.toNat + b.toNat > 255 then 1 else 0 :=
  toNat_flagByte_decide _

theorem toNat_flagByte_notBorrow (a b : Byte) :
    (flagByte (notBorrow a b)).toNat = if a.toNat > b.toNat then 1 else 0 :=
  toNat_flagByte_decide _

theorem toNat_flagByte_getLsbD (a : Byte) (k : Nat) : (flagByte (a.getLsbD k)).toNat = a.toNat / 2 ^ k % 2 := by
  rw [toNat_flagByte, BitVec.getLsbD, Nat.toNat_testBit]

theorem toNat_flagByte_shiftedOutLow (a : Byte) : (flagByte (shiftedOutLow a)).toNat = a.toNat % 2 := by
  rw [shiftedOutLow, toNat_flagByte_getLsbD, Nat.pow_zero, Nat.div_one]

/-- Bit 7 is all that a division by 128 leaves of a byte. -/
theorem toNat_flagByte_shiftedOutHigh (a : Byte) : (flagByte (shiftedOutHigh a)).toNat = a.toNat / 128 := by
  have hle : a.toNat / 128 < 2 := Nat.div_lt_of_lt_mul a.isLt
  rw [shiftedOutHigh, toNat_flagByte_getLsbD]
  exact Nat.mod_eq_of_lt hle

/-! ### The wrapped difference as an integer (R89) -/

/-- The remainder of the exact difference, which may be negative. -/
theorem toNat_sub_byte (a b : Byte) : ((a - b).toNat : Int) = (a.toNat - b.toNat : Int) % 256 := by
  have hb := b.isLt
  rw [BitVec.toNat_sub]
  omega

end Sys2Proof.Machine

namespace Sys2Proof.Claims

open Sys2Proof.Machine Sys2Proof.Laws

/-- A row of family 8 holds when the family's decoder reads its instruction from the low nibble (30_encoding.md
R61). -/
theorem rowDecodes_of_op8 {p : BitVec 16} {f : BitVec 16 → Instr} (hop : p.extractLsb' 12 4 = 0x8#4)
    (h : ∀ w, fieldN w = p.extractLsb' 0 4 → decodeFamily8 w = .assigned (f w)) : RowDecodes 0xF00F#16 p f :=
  fun w hw => (decode_of_op8 ((fieldOp_of_mask rfl hw).trans hop)).trans (h w (fieldN_of_mask rfl hw))

section
variable {i : Instr} {s : State} {x : Reg}

theorem Runs.mono {regs : Set Reg} {parts : Set Part} {P Q : State → Prop} (h : Runs i s regs parts P)
    (hPQ : ∀ t, P t → Q t) : Runs i s regs parts Q := by
  obtain ⟨t, hexec, hP, hframe⟩ := h
  exact ⟨t, hexec, hPQ t hP, hframe⟩

/-- An instruction that writes one register and no flag. -/
theorem runs_setReg {b : Byte} (h : exec i s = .next (s.advancePc.setReg x b)) :
    Runs i s {x} ∅ fun t => t.pc = s.pc + 2#16 ∧ t.reg x = b :=
  ⟨_, h, ⟨rfl, State.reg_setReg_self _ x b⟩,
    (ChangesOnly.advancePc _ _ s).trans (.setReg _ _ (Set.mem_singleton x) b)⟩

/-- An instruction that writes one register and then VF: the flag is what VF holds, also where `x` is VF
(00_scope.md R13). -/
theorem runs_setRegFlag {b c : Byte} (h : exec i s = .next (s.advancePc.setRegFlag x b c)) :
    Runs i s {x, 0xF#4} ∅ fun t =>
      t.pc = s.pc + 2#16 ∧ (x ≠ 0xF#4 → t.reg x = b) ∧ t.reg 0xF#4 = c := by
  have hreg := State.reg_setRegFlag s.advancePc x
  refine ⟨_, h, ⟨rfl, fun hx => ?_, ?_⟩,
    (ChangesOnly.advancePc _ _ s).trans (.setRegFlag _ _ (.inl rfl) (.inr rfl) b c)⟩
  · rw [hreg, if_neg hx, if_pos rfl]
  · exact (hreg vf b c).trans (if_pos rfl)

/-- An instruction that leaves the wrapped difference `a - b` and then NOT-borrow (42_alu.md R97, R99). -/
theorem runs_subtraction {a b : Byte}
    (h : exec i s = .next (s.advancePc.setRegFlag x (a - b) (flagByte (notBorrow a b)))) :
    Runs i s {x, 0xF#4} ∅ fun t =>
      t.pc = s.pc + 2#16 ∧ (x ≠ 0xF#4 → ((t.reg x).toNat : Int) = (a.toNat - b.toNat : Int) % 256) ∧
      (t.reg 0xF#4).toNat = if a.toNat > b.toNat then 1 else 0 :=
  (runs_setRegFlag h).mono fun _ ⟨hpc, hx, hf⟩ =>
    ⟨hpc, fun hne => by rw [hx hne, toNat_sub_byte], by rw [hf, toNat_flagByte_notBorrow]⟩

end

end Sys2Proof.Claims
end

section
/-! The statements of 42_alu.md, settled. -/

namespace Sys2Proof.Claims

open Sys2Proof.Machine Sys2Proof.Laws

/-- Settles O30: the carry is read from the exact sum and overwrites VF last. -/
theorem addSetsCarryLast : Obligations.AddSetsCarryLast := by
  refine ⟨rowDecodes_of_op8 rfl fun w hn => ?decodes, fun s x y => Runs.mono (runs_setRegFlag rfl) ?runs⟩
  case decodes =>
    rw [decodeFamily8, hn]
    rfl
  case runs =>
    rintro t ⟨hpc, hx, hf⟩
    exact ⟨hpc, fun hne => by rw [hx hne, BitVec.toNat_add], by rw [hf, toNat_flagByte_carry]⟩

/-- Settles O31: 8xy5 and 8xy7 are one subtraction with its operands exchanged. -/
theorem subtractionsSetNotBorrowLast : Obligations.SubtractionsSetNotBorrowLast := by
  refine ⟨rowDecodes_of_op8 rfl fun w hn => ?sub, rowDecodes_of_op8 rfl fun w hn => ?subn,
    fun s x y => ⟨runs_subtraction rfl, runs_subtraction rfl⟩⟩
  case sub | subn =>
    rw [decodeFamily8, hn]
    rfl

/-- Settles O32: the bit shifted out is a remainder of the old V[x] on the right, a quotient on the left. -/
theorem shiftsSetShiftedOutBitLast : Obligations.ShiftsSetShiftedOutBitLast := by
  refine ⟨rowDecodes_of_op8 rfl fun w hn => ?shr, rowDecodes_of_op8 rfl fun w hn => ?shl,
    fun s x => ⟨Runs.mono (runs_setRegFlag rfl) ?runsShr, Runs.mono (runs_setRegFlag rfl) ?runsShl⟩⟩
  case shr | shl =>
    rw [decodeFamily8, hn]
    rfl
  case runsShr =>
    rintro t ⟨hpc, hx, hf⟩
    exact ⟨hpc, fun hne => by rw [hx hne, BitVec.toNat_ushiftRight, Nat.shiftRight_one],
      by rw [hf, toNat_flagByte_shiftedOutLow]⟩
  case runsShl =>
    rintro t ⟨hpc, hx, hf⟩
    exact ⟨hpc, fun hne => by rw [hx hne, BitVec.toNat_shiftLeft, Nat.shiftLeft_eq],
      by rw [hf, toNat_flagByte_shiftedOutHigh]⟩

/-- Settles O28: each of the five is one write of its destination, read bit by bit. -/
theorem loadsAndLogicWriteOnlyTheDestination : Obligations.LoadsAndLogicWriteOnlyTheDestination := by
  refine ⟨rowDecodes_of_op fun w hop => ?ldImm, rowDecodes_of_op8 rfl fun w hn => ?ldReg,
    rowDecodes_of_op8 rfl fun w hn => ?orReg, rowDecodes_of_op8 rfl fun w hn => ?andReg,
    rowDecodes_of_op8 rfl fun w hn => ?xorReg, fun s x y kk => ⟨runs_setReg rfl, runs_setReg rfl,
      Runs.mono (runs_setReg rfl) ?runsOr, Runs.mono (runs_setReg rfl) ?runsAnd,
      Runs.mono (runs_setReg rfl) ?runsXor⟩⟩
  case ldImm =>
    rw [decode, hop]
    rfl
  case ldReg | orReg | andReg | xorReg =>
    rw [decodeFamily8, hn]
    rfl
  case runsOr => exact fun t ⟨hpc, hx⟩ => ⟨hpc, fun b => by rw [hx, BitVec.getLsbD_or]⟩
  case runsAnd => exact fun t ⟨hpc, hx⟩ => ⟨hpc, fun b => by rw [hx, BitVec.getLsbD_and]⟩
  case runsXor => exact fun t ⟨hpc, hx⟩ => ⟨hpc, fun b => by rw [hx, BitVec.getLsbD_xor]⟩

/-- Settles O29: the sum of two bytes wraps, and the one write is that of V[x]. -/
theorem addImmediateWrapsWithoutFlag : Obligations.AddImmediateWrapsWithoutFlag := by
  refine ⟨rowDecodes_of_op fun w hop => ?decodes, fun s x kk => Runs.mono (runs_setReg rfl) ?runs⟩
  case decodes =>
    rw [decode, hop]
    rfl
  case runs => exact fun t ⟨hpc, hx⟩ => ⟨hpc, by rw [hx, BitVec.toNat_add]⟩

/-- Settles O33: each bit of V[x] is the conjunction of RND's and kk's, so a 0 bit of kk clears it. -/
theorem randomByteIsMasked : Obligations.RandomByteIsMasked := by
  refine ⟨rowDecodes_of_op fun w hop => ?decodes, fun s x kk => Runs.mono (runs_setReg rfl) ?runs⟩
  case decodes =>
    rw [decode, hop]
    rfl
  case runs =>
    rintro t ⟨hpc, hx⟩
    have hbits : ∀ b, (t.reg x).getLsbD b = (s.input.rnd.getLsbD b && kk.getLsbD b) := fun b => by
      rw [hx, BitVec.getLsbD_and, State.rnd]
    exact ⟨hpc, hbits, fun b hkk => by rw [hbits, hkk, Bool.and_false]⟩

end Sys2Proof.Claims
end

section
/-! SUPPORT. The index register and memory transfer (43_index_memory.md): the words of family 0xF, the glyph address
and the decimal digits as integers, and what an instruction that writes I, or stores or loads a block, leaves in the
next state. -/

namespace Sys2Proof.Machine

/-! ### Computed values as integers -/

/-- The glyph address of the largest byte is 0x54B, so no address wraps (43_index_memory.md R104). -/
theorem toNat_glyphAddr (b : Byte) : (glyphAddr b).toNat = 0x050 + 5 * b.toNat := by
  have hb := b.isLt
  change (0x050 + 5 * b.toNat) % 2 ^ 16 = _
  omega

theorem length_bcdDigits (b : Byte) : (bcdDigits b).length = 3 := rfl

/-- Each decimal digit of a byte fits the byte that stores it (43_index_memory.md R105). -/
theorem toNat_getElem_bcdDigits (b : Byte) (k : Nat) (hk : k < 3) : ((bcdDigits b)[k]'hk).toNat =
    [b.toNat / 100, b.toNat / 10 % 10, b.toNat % 10][k] := by
  have hb := b.isLt
  match k with
  | 0 => exact Nat.mod_eq_of_lt (show b.toNat / 100 < 256 by omega)
  | 1 => exact Nat.mod_eq_of_lt (show b.toNat / 10 % 10 < 256 by omega)
  | 2 => exact Nat.mod_eq_of_lt (show b.toNat % 10 < 256 by omega)

/-! ### A block load inside the address space, and one that would pass 0xFFF (20_memory.md R45) -/

theorem execLdRegs_of_le {x : Reg} {s : State} (hin : s.i.toNat + x.toNat ≤ 0xFFF) :
    execLdRegs x s = .next (s.advancePc.setRegs 0 (s.peekAll s.i.toNat (x.toNat + 1))) := by
  rw [execLdRegs, readBlock_eq, if_pos (by omega)]
  rfl

theorem execLdRegs_of_lt {x : Reg} {s : State} (hout : 0xFFF < s.i.toNat + x.toNat) :
    execLdRegs x s = .next (s.raiseFault .memoryOutOfRange) := by
  rw [execLdRegs, readBlock_eq, if_neg (by omega)]
  rfl

end Sys2Proof.Machine

namespace Sys2Proof.Laws

theorem decode_of_opF {w : InstrWord} (h : fieldOp w = 0xF#4) : decode w = decodeFamilyF w := by
  rw [decode, h]
  rfl

end Sys2Proof.Laws

namespace Sys2Proof.Claims

open Sys2Proof.Machine Sys2Proof.Laws

/-- A row of family 0xF holds when the family's decoder reads its instruction from the low byte (30_encoding.md
R63). -/
theorem rowDecodes_of_opF {p : BitVec 16} {f : BitVec 16 → Instr} (hop : p.extractLsb' 12 4 = 0xF#4)
    (h : ∀ w, fieldKk w = p.extractLsb' 0 8 → decodeFamilyF w = .assigned (f w)) : RowDecodes 0xF0FF#16 p f :=
  fun w hw => (decode_of_opF ((fieldOp_of_mask rfl hw).trans hop)).trans (h w (fieldKk_of_mask rfl hw))

/-- An instruction that writes I and nothing else. -/
theorem runs_setI {i : Instr} {s : State} {a : Addr} (h : exec i s = .next (s.advancePc.setI a)) :
    Runs i s ∅ {.index} fun t => t.pc = s.pc + 2#16 ∧ t.i = a :=
  ⟨_, h, ⟨rfl, rfl⟩, (ChangesOnly.advancePc _ _ s).trans (.setI _ (Set.mem_singleton _) _ a)⟩

section
variable {i : Instr} {s : State} {n : Nat} {bs : List Byte}
  (h : exec i s = settle s (writeBlock s.advancePc s.i.toNat bs)) (hn : bs.length = n + 1)
include h hn

/-- A block store that would pass 0xFFF raises on the state at the start of the cycle (20_memory.md R45). -/
theorem raises_store (hout : 0xFFF < s.i.toNat + n) : Raises i s .memoryOutOfRange := by
  rw [writeBlock_eq, if_neg (by omega)] at h
  exact h

/-- A block store inside the address space leaves its bytes at I..I+n and every other byte as it was. -/
theorem runs_store (hwf : s.memWf) (hin : s.i.toNat + n ≤ 0xFFF) : Runs i s ∅ {.memory} fun t =>
    t.pc = s.pc + 2#16 ∧ (∀ k (hk : k < bs.length), t.peek (s.i.toNat + k) = bs[k]) ∧
    ∀ a, (a < s.i.toNat ∨ s.i.toNat + n < a) → t.peek a = s.peek a := by
  rw [writeBlock_eq, if_pos (by omega)] at h
  have hfits : s.i.toNat + bs.length ≤ Config.memSize := hn ▸ Nat.succ_le_succ hin
  refine ⟨_, h, ⟨State.pokeAll_pc _ _ _, fun k => State.peek_pokeAll_inside (s := s.advancePc) hwf hfits,
    fun a ha => ?_⟩, (ChangesOnly.advancePc _ _ s).trans (.pokeAll _ (Set.mem_singleton _) _ _ _)⟩
  exact State.peek_pokeAll_outside (s := s.advancePc) hwf hfits (by omega)

end

/-- A block load inside the address space leaves byte r of the block in each register r up to x (43_index_memory.md
R107). -/
theorem runs_ldRegs {s : State} {x : Reg} (hin : s.i.toNat + x.toNat ≤ 0xFFF) :
    Runs (.ldRegs x) s {r | r.toNat ≤ x.toNat} ∅ fun t =>
      t.pc = s.pc + 2#16 ∧ ∀ r : Reg, r.toNat ≤ x.toNat → t.reg r = s.peek (s.i.toNat + r.toNat) := by
  have hx := x.isLt
  have hlen := s.length_peekAll s.i.toNat (x.toNat + 1)
  refine ⟨_, execLdRegs_of_le hin, ⟨State.setRegs_pc _ _ _, fun r hr => ?loaded⟩,
    (ChangesOnly.advancePc _ _ s).trans (.setRegs _ _ fun j _ hj => ?upToX)⟩
  case loaded =>
    rw [State.reg_setRegs _ _ _ (by omega), dif_pos (by omega), State.getElem_peekAll]
    rfl
  case upToX =>
    have hj' : (BitVec.ofNat 4 j).toNat ≤ j := Nat.mod_le j 16
    exact hj'.trans (by omega)

end Sys2Proof.Claims
end

section
/-! The statements of 43_index_memory.md, settled. -/

namespace Sys2Proof.Claims

open Sys2Proof.Machine Sys2Proof.Laws

/-- Settles O35: the three digits are a block of length 3, each digit below 256. -/
theorem bcdStoresThreeDigits : Obligations.BcdStoresThreeDigits := by
  refine ⟨rowDecodes_of_opF rfl fun w hkk => ?decodes, fun s x hwf => ⟨raises_store rfl (length_bcdDigits _),
    fun hin => (runs_store rfl (length_bcdDigits _) hwf hin).mono ?runs⟩⟩
  case decodes =>
    rw [decodeFamilyF, hkk]
    rfl
  case runs =>
    rintro t ⟨hpc, hbytes, hrest⟩
    have digits := fun k (hk : k < 3) =>
      (congrArg BitVec.toNat (hbytes k hk)).trans (toNat_getElem_bcdDigits (s.reg x) k hk)
    exact ⟨hpc, digits 0 (by decide), digits 1 (by decide), digits 2 (by decide), hrest⟩

/-- Settles O36: byte r of the stored block is V[r]. -/
theorem storeWritesRegistersUpToX : Obligations.StoreWritesRegistersUpToX := by
  refine ⟨rowDecodes_of_opF rfl fun w hkk => ?decodes, fun s x hwf => ⟨raises_store rfl (s.length_regsUpTo x),
    fun hin => (runs_store rfl (s.length_regsUpTo x) hwf hin).mono ?runs⟩⟩
  case decodes =>
    rw [decodeFamilyF, hkk]
    rfl
  case runs =>
    rintro t ⟨hpc, hbytes, hrest⟩
    refine ⟨hpc, fun r hr => ?_, hrest⟩
    rw [hbytes r.toNat (by rw [State.length_regsUpTo]; omega), State.getElem_regsUpTo, BitVec.ofNat_toNat,
      BitVec.setWidth_eq]

/-- Settles O37: the block is read whole before the first register is written. -/
theorem loadReadsRegistersUpToX : Obligations.LoadReadsRegistersUpToX := by
  refine ⟨rowDecodes_of_opF rfl fun w hkk => ?_, fun s x => ⟨execLdRegs_of_lt, runs_ldRegs⟩⟩
  rw [decodeFamilyF, hkk]
  rfl

/-- Settles O34: each of the three is one write of I, whose value is the operand widened, wrapped or below 0x54C. -/
theorem indexTakesAddressSumOrGlyph : Obligations.IndexTakesAddressSumOrGlyph := by
  refine ⟨rowDecodes_of_op fun w hop => ?ldI, rowDecodes_of_opF rfl fun w hkk => ?addI,
    rowDecodes_of_opF rfl fun w hkk => ?ldF, fun s x nnn => ⟨Runs.mono (runs_setI rfl) ?runsLdI,
      Runs.mono (runs_setI rfl) ?runsAddI, Runs.mono (runs_setI rfl) ?runsLdF⟩⟩
  case ldI =>
    rw [decode, hop]
    rfl
  case addI | ldF =>
    rw [decodeFamilyF, hkk]
    rfl
  case runsLdI => exact fun t ⟨hpc, hi⟩ => ⟨hpc, by rw [hi, toNat_zextAddr]⟩
  case runsAddI => exact fun t ⟨hpc, hi⟩ => ⟨hpc, by rw [hi, BitVec.toNat_add, toNat_zextByte]⟩
  case runsLdF => exact fun t ⟨hpc, hi⟩ => ⟨hpc, by rw [hi, toNat_glyphAddr]⟩

end Sys2Proof.Claims
end

section
/-! SUPPORT. The framebuffer instructions (44_display.md): the pixels of a sprite as the cells it covers, the three
answers of DRW as one equation, and what a sprite that fits leaves in the next state. -/

namespace Sys2Proof.Machine

/-- The pixels of the sprite that DRW draws from `s`: its set bits at the wrapped origin, unwrapped (R109). -/
def State.sprite (s : State) (x y : Reg) (n : Nat) : List (Nat × Nat) :=
  spritePixels (originX s x) (originY s y) (s.peekAll s.i.toNat n)

/-- The state in which DRW has drawn its sprite, VF written last. -/
def State.drawn (s : State) (x y : Reg) (n : Nat) : State :=
  (s.advancePc.setFb (drawPixels (s.sprite x y n) s.fb false).1).setReg vf
    (flagByte (drawPixels (s.sprite x y n) s.fb false).2)

/-- DRW checks its memory block, then its pixels, and then draws (R109, 60_exceptions.md R125). -/
theorem execDrw_eq (x y : Reg) (n : Nat) (s : State) : execDrw x y n s =
    if n = 0 ∨ s.i.toNat + n ≤ 0x1000 then
      if pixelsOnScreen (s.sprite x y n) then .next (s.drawn x y n) else .next (s.raiseFault .spriteOutOfRange)
    else .next (s.raiseFault .memoryOutOfRange) := by
  rw [execDrw, readBlock_eq]
  split
  · change settle s (drawSprite s.advancePc _ _ _) = _
    rw [drawSprite, apply_ite (settle s)]
    rfl
  · rfl

end Sys2Proof.Machine

namespace Sys2Proof.Claims

open Sys2Proof.Machine Sys2Proof.Laws

theorem rowDecodes_cls : RowDecodes 0xF00F#16 0x0000#16 fun _ => .cls := by
  intro w hw
  rw [decode_of_op0 (fieldOp_of_mask rfl hw), decodeFamily0, fieldN_of_mask rfl hw]
  rfl

/-! ### The covered cells are the sprite's pixels -/

theorem mem_sprite_iff_covers {s : State} {x y : Reg} {n X Y : Nat} :
    (X, Y) ∈ s.sprite x y n ↔ Covers s x y n X Y := by
  simp only [State.sprite, mem_spritePixels, State.getElem_peekAll, State.length_peekAll, exists_prop]
  rfl

theorem pixelsOnScreen_sprite_iff {s : State} {x y : Reg} {n : Nat} :
    pixelsOnScreen (s.sprite x y n) = true ↔ ∀ X Y, Covers s x y n X Y → X ≤ 63 ∧ Y ≤ 31 := by
  simp only [pixelsOnScreen_iff, Prod.forall, mem_sprite_iff_covers, Nat.lt_succ_iff]

/-- Which cells DRW covers depends on its origin registers, I and memory only. -/
theorem covers_congr {s t : State} {x y : Reg} (hx : t.reg x = s.reg x) (hy : t.reg y = s.reg y) (hi : t.i = s.i)
    (hmem : ∀ a, t.peek a = s.peek a) (n X Y : Nat) : Covers t x y n X Y ↔ Covers s x y n X Y := by
  simp only [Covers, hx, hy, hi, hmem]

theorem drawFits_congr {s t : State} {x y : Reg} {n : Nat} (hi : t.i = s.i)
    (hcov : ∀ X Y, Covers t x y n X Y ↔ Covers s x y n X Y) : DrawFits t x y n ↔ DrawFits s x y n := by
  simp only [DrawFits, hi, hcov]

/-! ### What DRW leaves in the next state -/

theorem raises_drw_memory {s : State} (x y : Reg) {n : Nat} (hpos : 0 < n) (hout : 0x1000 < s.i.toNat + n) :
    Raises (.drw x y n) s .memoryOutOfRange :=
  (execDrw_eq x y n s).trans (if_neg (by omega))

theorem raises_drw_sprite {s : State} {x y : Reg} {n : Nat} (hmem : n = 0 ∨ s.i.toNat + n ≤ 0x1000)
    (hout : ∃ X Y, Covers s x y n X Y ∧ (63 < X ∨ 31 < Y)) : Raises (.drw x y n) s .spriteOutOfRange := by
  have hoff : ¬ pixelsOnScreen (s.sprite x y n) = true := by
    obtain ⟨X, Y, hcov, hXY⟩ := hout
    intro hon
    have hin := pixelsOnScreen_sprite_iff.1 hon X Y hcov
    omega
  exact (execDrw_eq x y n s).trans ((if_pos hmem).trans (if_neg hoff))

/-- What DRW leaves beside its frame: the covered cells flipped, the others kept, and the collision in VF (R109). -/
structure Draws (s : State) (x y : Reg) (n : Nat) (t : State) : Prop where
  pc_eq : t.pc = s.pc + 2#16
  flips : ∀ X Y, Covers s x y n X Y → t.cell X Y = !s.cell X Y
  keeps : ∀ X Y, ¬ Covers s x y n X Y → t.cell X Y = s.cell X Y
  flag_set : (∃ X Y, Covers s x y n X Y ∧ s.cell X Y = true) → t.reg 0xF#4 = 1#8
  flag_clear : (∀ X Y, Covers s x y n X Y → s.cell X Y = false) → t.reg 0xF#4 = 0#8

section
variable {s : State} {x y : Reg} {n : Nat} (hfits : DrawFits s x y n)
include hfits

theorem pixels_lt_of_drawFits : ∀ p ∈ s.sprite x y n, p.1 < 64 ∧ p.2 < 32 := by
  obtain ⟨-, hon⟩ := hfits
  exact (pixelsOnScreen_iff _).1 (pixelsOnScreen_sprite_iff.2 hon)

theorem drawn_cell (X Y : Nat) :
    (s.drawn x y n).cell X Y = (s.cell X Y ^^ decide ((X, Y) ∈ s.sprite x y n)) :=
  fbCell_drawPixels _ s.fb (nodup_spritePixels _ _ _) (pixels_lt_of_drawFits hfits) false X Y

theorem drawn_flag :
    (s.drawn x y n).reg 0xF#4 = flagByte ((s.sprite x y n).any fun p => s.cell p.1 p.2) := by
  have hcol := drawPixels_collision _ s.fb (nodup_spritePixels _ _ _) (pixels_lt_of_drawFits hfits) false
  exact (State.reg_setReg_self _ vf _).trans (congrArg flagByte (hcol.trans (Bool.false_or _)))

theorem draws_drawn : Draws s x y n (s.drawn x y n) where
  pc_eq := rfl
  flips X Y hcov := by
    rw [drawn_cell hfits, decide_eq_true (mem_sprite_iff_covers.2 hcov), Bool.xor_true]
  keeps X Y hcov := by
    rw [drawn_cell hfits, decide_eq_false (mt mem_sprite_iff_covers.1 hcov), Bool.xor_false]
  flag_set := by
    rintro ⟨X, Y, hcov, hset⟩
    rw [drawn_flag hfits, List.any_eq_true.2 ⟨(X, Y), mem_sprite_iff_covers.2 hcov, hset⟩]
    rfl
  flag_clear hclear := by
    have hnone : ∀ p ∈ s.sprite x y n, ¬ s.cell p.1 p.2 = true := fun p hp =>
      Bool.not_eq_true _ ▸ hclear p.1 p.2 (mem_sprite_iff_covers.1 hp)
    rw [drawn_flag hfits, List.any_eq_false.2 hnone]
    rfl

/-- A sprite that fits is drawn, and nothing but PC, VF and the framebuffer changes. -/
theorem runs_drw : Runs (.drw x y n) s {0xF#4} {.screen} (Draws s x y n) := by
  have hdraws := draws_drawn hfits
  obtain ⟨hmem, hon⟩ := hfits
  have hexec := (execDrw_eq x y n s).trans ((if_pos hmem).trans (if_pos (pixelsOnScreen_sprite_iff.2 hon)))
  exact ⟨_, hexec, hdraws, ((ChangesOnly.advancePc _ _ s).trans (.setFb _ (Set.mem_singleton _) _ _)).trans
    (.setReg _ _ (Set.mem_singleton _) _)⟩

end

/-! ### The laws of the draw datapath (R110) -/

section
variable {s t u : State} {x y : Reg} {n : Nat} (hst : Draws s x y n t)
include hst

theorem Draws.flag_iff : t.reg 0xF#4 = 1#8 ↔ ∃ X Y, Covers s x y n X Y ∧ s.cell X Y = true := by
  refine ⟨fun hone => by_contra fun hnone => ?_, hst.flag_set⟩
  have hzero := hst.flag_clear fun X Y hcov => Bool.eq_false_iff.2 fun hset => hnone ⟨X, Y, hcov, hset⟩
  exact absurd (hone.symm.trans hzero) (by decide)

/-- The cells that a draw clears are the covered cells that were set. -/
theorem Draws.cleared_iff (X Y : Nat) :
    (s.cell X Y = true ∧ t.cell X Y = false) ↔ Covers s x y n X Y ∧ s.cell X Y = true := by
  by_cases hcov : Covers s x y n X Y
  · simp [hst.flips X Y hcov, hcov]
  · simp [hst.keeps X Y hcov, hcov]

/-- A second draw of the same cells flips back what the first has flipped. -/
theorem Draws.cell_eq_of_twice (htu : Draws t x y n u) (hcov : ∀ X Y, Covers t x y n X Y ↔ Covers s x y n X Y)
    (X Y : Nat) : u.cell X Y = s.cell X Y := by
  by_cases h : Covers s x y n X Y
  · rw [htu.flips X Y ((hcov X Y).2 h), hst.flips X Y h, Bool.not_not]
  · rw [htu.keeps X Y (mt (hcov X Y).1 h), hst.keeps X Y h]

/-- A second draw of the same cells collides where the first met a clear cell. -/
theorem Draws.flag_iff_of_twice (htu : Draws t x y n u)
    (hcov : ∀ X Y, Covers t x y n X Y ↔ Covers s x y n X Y) :
    u.reg 0xF#4 = 1#8 ↔ ∃ X Y, Covers s x y n X Y ∧ s.cell X Y = false := by
  refine htu.flag_iff.trans (exists₂_congr fun X Y => (and_congr_left' (hcov X Y)).trans ?_)
  refine and_congr_right fun h => ?_
  rw [hst.flips X Y h, Bool.not_eq_true']

end

end Sys2Proof.Claims
end

section
/-! The statements of 44_display.md, settled. -/

namespace Sys2Proof.Claims

open Sys2Proof.Machine

/-- Settles O40: DRW is one equation of three branches, and in the last the drawn pixels are the covered cells. -/
theorem drawTogglesCoveredCells : Obligations.DrawTogglesCoveredCells := by
  refine ⟨rowDecodes_of_op fun w hop => ?decodes, fun s x y n => ⟨raises_drw_memory x y, raises_drw_sprite,
    fun hfits => (runs_drw hfits).mono ?runs⟩⟩
  case decodes =>
    rw [decode, hop]
    rfl
  case runs => exact fun t ⟨hpc, hflips, hkeeps, hset, hclear⟩ => ⟨hpc, hflips, hkeeps, hset, hclear⟩

/-- Settles O41: the first draw keeps I and memory, so a second at the same origin covers the same cells. -/
theorem drawTwiceRestoresTheScreen : Obligations.DrawTwiceRestoresTheScreen := by
  intro s x y n hfits
  obtain ⟨t, hexec, hst, hframe⟩ := runs_drw hfits
  have hmem := hframe.peek_eq (by decide)
  have hi := hframe.i_eq (by decide)
  have hflag := hst.flag_iff.trans (exists₂_congr fun X Y => (hst.cleared_iff X Y).symm)
  refine ⟨t, hexec, hst.keeps, hflag, hmem, fun hx hy => ?_⟩
  have hcov := covers_congr hx hy hi hmem n
  obtain ⟨u, hexec', htu, hframe'⟩ := runs_drw ((drawFits_congr hi hcov).2 hfits)
  have hflag' := hst.flag_iff_of_twice htu hcov
  refine ⟨u, hexec', hst.cell_eq_of_twice htu hcov, fun a => (hframe'.peek_eq (by decide) a).trans (hmem a), hflag',
    fun hclear => hflag'.trans (exists₂_congr fun X Y => ?_)⟩
  exact and_iff_left_of_imp (hclear X Y)

/-- Settles O39: one write of the framebuffer with every cell clear. -/
theorem clearScreenClearsEveryCell : Obligations.ClearScreenClearsEveryCell :=
  ⟨rowDecodes_cls, fun s => ⟨_, rfl, ⟨rfl, fbCell_clear⟩,
    (ChangesOnly.advancePc _ _ s).trans (.setFb _ (Set.mem_singleton _) _ _)⟩⟩

end Sys2Proof.Claims
end

section
/-! SUPPORT. Key input and timers (45_timers_keys.md): the words of family 0xE, and what a skip on the named key and a
timer move leave in the next state. -/

namespace Sys2Proof.Claims

open Sys2Proof.Machine Sys2Proof.Laws

/-- A row of family 0xE holds when the family's decoder reads its instruction from the low nibble (30_encoding.md
R62). -/
theorem rowDecodes_of_opE {p : BitVec 16} {f : BitVec 16 → Instr} (hop : p.extractLsb' 12 4 = 0xE#4)
    (h : ∀ w, fieldN w = p.extractLsb' 0 4 → decodeFamilyE w = .assigned (f w)) : RowDecodes 0xF00F#16 p f :=
  fun w hw => (decode_of_opE ((fieldOp_of_mask rfl hw).trans hop)).trans (h w (fieldN_of_mask rfl hw))

section
variable {i : Instr} {s : State}

/-- An instruction that skips on a condition and does nothing else. -/
theorem runs_skipIf {c : Bool} (h : exec i s = .next (s.skipIf c)) :
    Runs i s ∅ ∅ fun t => t.pc = if c = true then s.pc + 4#16 else s.pc + 2#16 :=
  ⟨_, h, s.skipIf_pc c, .skipIf _ _ s c⟩

theorem runs_setDt {b : Byte} (h : exec i s = .next (s.advancePc.setDt b)) :
    Runs i s ∅ {.delay} fun t => t.pc = s.pc + 2#16 ∧ t.dt = b :=
  ⟨_, h, ⟨rfl, rfl⟩, (ChangesOnly.advancePc _ _ s).trans (.setDt _ (Set.mem_singleton _) _ b)⟩

theorem runs_setSt {b : Byte} (h : exec i s = .next (s.advancePc.setSt b)) :
    Runs i s ∅ {.sound} fun t => t.pc = s.pc + 2#16 ∧ t.st = b :=
  ⟨_, h, ⟨rfl, rfl⟩, (ChangesOnly.advancePc _ _ s).trans (.setSt _ (Set.mem_singleton _) _ b)⟩

end

end Sys2Proof.Claims
end

section
/-! The statements of 45_timers_keys.md, settled. -/

namespace Sys2Proof.Claims

open Sys2Proof.Machine Sys2Proof.Laws

/-- Settles O43: the first held key of the search is the lowest, and with none the advance is taken back. -/
theorem keyWaitTakesLowestKeyOrRepeats : Obligations.KeyWaitTakesLowestKeyOrRepeats := by
  refine ⟨rowDecodes_of_opF rfl fun w hkk => ?decodes, fun s x => ⟨fun hnone => ?repeats,
    fun k hk hheld hlow => ?takes⟩⟩
  case decodes =>
    rw [decodeFamilyF, hkk]
    rfl
  case repeats => exact ⟨_, execLdVxK_of_none (firstHeld_eq_none hnone), rfl, .setPc _ _ s s.pc⟩
  case takes =>
    refine Runs.mono (runs_setReg (execLdVxK_of_some (firstHeld_eq_some hk hheld hlow))) fun t ⟨hpc, hx⟩ => ⟨hpc, ?_⟩
    rw [hx, BitVec.toNat_ofNat, Nat.mod_eq_of_lt (hk.trans (by decide))]

/-- Settles O42: up to 15 the named key exists and its state is the condition of the skip, negated for SKNP. -/
theorem keySkipsTestTheNamedKey : Obligations.KeySkipsTestTheNamedKey := by
  refine ⟨rowDecodes_of_opE rfl fun w hn => ?skp, rowDecodes_of_opE rfl fun w hn => ?sknp,
    fun s x => ⟨fun hout => ⟨if_pos hout, if_pos hout⟩, fun hin => ?runs⟩⟩
  case skp | sknp =>
    rw [decodeFamilyE, hn]
    rfl
  case runs =>
    have hkey := keyHeld_of_lt s (Nat.lt_succ_of_le hin)
    refine ⟨Runs.mono (runs_skipIf (execSkp_of_le hin)) fun t hpc => ?_,
      Runs.mono (runs_skipIf (execSknp_of_le hin)) fun t hpc => ?_⟩
    · rw [hpc, hkey]
    · rw [hpc, hkey]
      cases s.input.keys[(s.reg x).toNat] <;> rfl

/-- Settles O44: each of the three is one write of a byte that the state at the start of the cycle holds. -/
theorem timerMovesCopyOneByte : Obligations.TimerMovesCopyOneByte := by
  refine ⟨rowDecodes_of_opF rfl fun w hkk => ?ldVxDt, rowDecodes_of_opF rfl fun w hkk => ?ldDtVx,
    rowDecodes_of_opF rfl fun w hkk => ?ldStVx, fun s x => ⟨runs_setReg rfl, runs_setDt rfl, runs_setSt rfl⟩⟩
  case ldVxDt | ldDtVx | ldStVx =>
    rw [decodeFamilyF, hkk]
    rfl

end Sys2Proof.Claims
end

section
/-! SUPPORT. Which fault a cycle raises, if any (60_exceptions.md): an instruction raises its own fault exactly when its
own check fails, the fetch comes first, and the load port leaves FAULT alone. -/

namespace Sys2Proof.Machine

open Sys2Proof.Claims

theorem fetchable_eq_false_iff (s : State) : s.fetchable = false ↔ ¬ MayFetch s :=
  Bool.eq_false_iff.trans (not_congr (fetchable_iff s))

/-- The cycle port leaves a faulted core as it is, the host's queue included. -/
theorem cycle_faulted {s : State} (hf : s.fault ≠ none) (keys : Keys) (rnd : Byte) : cycle keys rnd s = .next s := by
  rw [cycle_eq, step_faulted (s := s.given keys rnd) hf]
  rfl

/-- A load that answers is one block write at 0x200 (70_reset_and_hazards.md R139). -/
theorem load_eq_ok {bytes : List Byte} {s t : State} (h : load bytes s = .ok t) :
    bytes.length ≤ Config.progMaxLen ∧ t = s.pokeAll Config.progBase bytes := by
  unfold load at h
  split at h <;> cases h
  next hfits => exact ⟨of_decide_eq_true hfits, rfl⟩

/-- A block store passes 0xFFF or leaves FAULT alone (20_memory.md R45). -/
theorem out_or_fault_eq_of_store {s t : State} {a n : Nat} {bs : List Byte} (hn : bs.length = n + 1)
    (h : settle s (writeBlock s.advancePc a bs) = .next t) : 0xFFF < a + n ∨ t.fault = s.fault := by
  rw [writeBlock_eq] at h
  split at h <;> cases h
  · exact .inr (State.pokeAll_fault _ _ _)
  · exact .inl (by omega)

/-- A key skip fails its check or leaves FAULT alone (45_timers_keys.md R111, R112). -/
theorem out_or_fault_eq_of_keySkip {p : Prop} [Decidable p] {s t : State} {k : FaultKind} {c : Bool}
    (h : (if p then .next (s.raiseFault k) else .next (s.skipIf c) : Result) = .next t) : p ∨ t.fault = s.fault := by
  split at h <;> cases h
  · next hout => exact .inl hout
  · exact .inr (State.skipIf_fault _ _)

end Sys2Proof.Machine

namespace Sys2Proof.Claims

open Sys2Proof.Machine

/-- Where an instruction's own check fails it raises that fault: no instruction has two checks that fail at once. -/
theorem OwnFault.raises {s : State} {i : Instr} {k : FaultKind} (h : OwnFault s i k) : Raises i s k := by
  cases h with
  | call nnn hfull => exact if_pos hfull
  | ret hempty => exact if_pos (BitVec.eq_of_toNat_eq hempty)
  | bcd x hout => exact raises_store rfl (length_bcdDigits _) hout
  | store x hout => exact raises_store rfl (s.length_regsUpTo x) hout
  | load x hout => exact execLdRegs_of_lt hout
  | drawMemory x y n hpos hout => exact raises_drw_memory x y hpos hout
  | drawScreen x y n X Y hmem hcov hoff => exact raises_drw_sprite hmem ⟨X, Y, hcov, hoff⟩
  | skp x hkey | sknp x hkey => exact if_pos hkey

/-- A DRW that does not fit fails one of its two checks (44_display.md R109). -/
theorem exists_ownFault_drw {s : State} {x y : Reg} {n : Nat} (h : ¬ DrawFits s x y n) :
    ∃ k, OwnFault s (.drw x y n) k := by
  by_cases hmem : n = 0 ∨ s.i.toNat + n ≤ 0x1000
  · obtain ⟨X, Y, hcov, hoff⟩ : ∃ X Y, Covers s x y n X Y ∧ ¬ (X ≤ 63 ∧ Y ≤ 31) := by
      simpa [DrawFits, hmem] using h
    exact ⟨_, .drawScreen x y n X Y hmem hcov (by omega)⟩
  · exact ⟨_, .drawMemory x y n (by omega) (by omega)⟩

/-- An instruction fails a check of its own, or leaves FAULT alone. -/
theorem exists_ownFault_or_fault_eq {i : Instr} {s t : State} (h : exec i s = .next t) :
    (∃ k, OwnFault s i k) ∨ t.fault = s.fault := by
  cases i with
  | call nnn =>
    obtain ⟨hfull, -⟩ | ⟨-, rfl⟩ := execCall_cases h
    · exact .inl ⟨_, .call nnn hfull⟩
    · exact .inr rfl
  | ret =>
    obtain ⟨hempty, -⟩ | ⟨-, a, -, rfl⟩ := execRet_cases h
    · exact .inl ⟨_, .ret (congrArg BitVec.toNat hempty)⟩
    · exact .inr rfl
  | ldB x => exact (out_or_fault_eq_of_store (length_bcdDigits _) h).imp_left fun hout => ⟨_, .bcd x hout⟩
  | stRegs x => exact (out_or_fault_eq_of_store (s.length_regsUpTo x) h).imp_left fun hout => ⟨_, .store x hout⟩
  | ldRegs x =>
    obtain hout | hin := Nat.lt_or_ge 0xFFF (s.i.toNat + x.toNat)
    · exact .inl ⟨_, .load x hout⟩
    · cases (execLdRegs_of_le hin).symm.trans h
      exact .inr (State.setRegs_fault _ _ _)
  | drw x y n =>
    by_cases hfits : DrawFits s x y n
    · obtain ⟨u, hu, -, hframe⟩ := runs_drw hfits
      cases hu.symm.trans h
      exact .inr hframe.fault_eq
    · exact .inl (exists_ownFault_drw hfits)
  | skp x => exact (out_or_fault_eq_of_keySkip h).imp_left fun hout => ⟨_, .skp x hout⟩
  | sknp x => exact (out_or_fault_eq_of_keySkip h).imp_left fun hout => ⟨_, .sknp x hout⟩
  | ldVxK x => obtain ⟨b, rfl⟩ | rfl := execLdVxK_cases h <;> exact .inr rfl
  | seImm | sneImm | seReg | sneReg => cases h; exact .inr (State.skipIf_fault _ _)
  | _ => cases h; exact .inr rfl

/-- A running core that executes an instruction ends with exactly the fault of the check that failed. -/
theorem exec_fault_iff {i : Instr} {s t : State} {k : FaultKind} (hf : s.fault = none) (h : exec i s = .next t) :
    t.fault = some k ↔ OwnFault s i k := by
  refine ⟨fun hk => ?_, fun hown => ?_⟩
  · obtain ⟨k', hown⟩ | hkept := exists_ownFault_or_fault_eq h
    · cases hown.raises.symm.trans h
      cases hk
      exact hown
    · cases hk.symm.trans (hkept.trans hf)
  · cases hown.raises.symm.trans h
    rfl

/-- The no-op of an unassigned word has no check (30_encoding.md R64). -/
theorem execDecoded_fault_iff {d : Decoded} {s t : State} {k : FaultKind} (hf : s.fault = none)
    (h : execDecoded d s = .next t) : t.fault = some k ↔ ∃ i, d = .assigned i ∧ OwnFault s i k := by
  cases d with
  | assigned i => simpa using exec_fault_iff hf h
  | noOp => cases h; simp [hf]

end Sys2Proof.Claims
end

section
/-! The statements of 60_exceptions.md, settled. -/

namespace Sys2Proof.Claims

open Sys2Proof.Machine

/-- Settles O10: the fetch check comes before the instruction runs, and there its own check is the only one. -/
theorem faultRaisedExactlyByPriority : Obligations.FaultRaisedExactlyByPriority := by
  intro s t k hf h
  obtain ⟨hne, -⟩ | ⟨-, hp, rfl⟩ | ⟨-, hp, u, hu, rfl⟩ := step_cases h
  · exact absurd hf hne
  · have hm : ¬ MayFetch s := (fetchable_eq_false_iff s).1 hp
    simp [hm, eq_comm]
  · have hm : MayFetch s := (fetchable_iff s).1 hp
    have hown : u.fault = some k ↔ ∃ i, decode (wordAt s) = .assigned i ∧ OwnFault s i k :=
      execDecoded_fault_iff hf hu
    simpa [hm] using hown

/-- Settles O7: at such a PC the driver's own check fails before the fetch. -/
theorem fetchOutsideProgramRegionFaults : Obligations.FetchOutsideProgramRegionFaults := by
  intro s hf hout
  have hm : ¬ MayFetch s := fun ⟨hlo, hhi⟩ => by omega
  exact ⟨_, step_unfetchable hf ((fetchable_eq_false_iff s).2 hm), rfl, rfl, rfl⟩

/-- Settles O8: the step and the cycle port answer the faulted state itself, and a load writes memory only. -/
theorem faultedCoreIsStopped : Obligations.FaultedCoreIsStopped := by
  refine fun s hf => ⟨step_faulted hf, cycle_faulted hf, fun bytes t h => ?_, rfl⟩
  obtain ⟨-, rfl⟩ := load_eq_ok h
  exact State.pokeAll_fault _ _ _

end Sys2Proof.Claims
end

section
/-! SUPPORT. The load port as one equation, and the cycles of 70_reset_and_hazards.md: one that runs an instruction at
PC, and one of an idle core. -/

namespace Sys2Proof.Machine

open Sys2Proof.Claims

/-! ### The load port -/

/-- The load port checks the length and then writes one block at 0x200 (70_reset_and_hazards.md R139, R140). -/
theorem load_eq (bytes : List Byte) (s : State) :
    load bytes s = if bytes.length ≤ 3584 then .ok (s.pokeAll 0x200 bytes) else .error .tooLong := by
  simp only [load, imageFits, decide_eq_true_eq]

/-! ### The end of a cycle, as the next cycle meets it -/

theorem State.endCycle_dt {s : State} (hf : s.fault = none) : s.endCycle.dt = tick s.dt := by
  rw [State.endCycle_running hf]

@[simp] theorem wordAt_endCycle (s : State) : wordAt s.endCycle = wordAt s := by
  simp only [wordAt, State.endCycle_pc, State.peek_endCycle]

/-- From the fetch region the advance does not wrap (20_memory.md R42). -/
theorem toNat_pc_add_two {s : State} (hm : MayFetch s) : (s.pc + 2#16).toNat = s.pc.toNat + 2 := by
  obtain ⟨-, hpc⟩ := hm
  bv_omega

/-- A cycle on a word whose instruction runs ends, without a fault, the cycle of the state that `Runs` speaks of. -/
theorem step_of_runs {s : State} {i : Instr} {regs : Set Reg} {parts : Set Part} {P : State → Prop}
    (hf : s.fault = none) (hm : MayFetch s) (hd : decode (wordAt s) = .assigned i) (h : Runs i s regs parts P) :
    ∃ u, step s = .next u.endCycle ∧ u.fault = none ∧ P u ∧ ChangesOnly regs parts s u := by
  obtain ⟨u, hexec, hP, hframe⟩ := h
  exact ⟨u, by rw [step_of_decode hf hm hd, hexec, mapNext], hframe.fault_eq.trans hf, hP, hframe⟩

/-! ### The idle core (R144 (a)) -/

/-- A jump to its own address leaves the state it was given. -/
theorem exec_jp_pc {s : State} {nnn : BitVec 12} (h : nnn.toNat = s.pc.toNat) : exec (.jp nnn) s = .next s := by
  have hpc : zextAddr nnn = s.pc := BitVec.eq_of_toNat_eq ((toNat_zextAddr nnn).trans h)
  change Host.Outcome.next (s.setPc (zextAddr nnn)) = _
  rw [hpc]
  rfl

theorem step_of_idle {s : State} (h : Idle s) : step s = .next s.endCycle := by
  obtain ⟨hf, hp, nnn, hd, hpc⟩ := h
  rw [step_of_decode hf ((fetchable_iff s).1 hp) hd, exec_jp_pc hpc, mapNext]

/-- The end of a cycle keeps all that idleness speaks of. -/
theorem Idle.endCycle {s : State} (h : Idle s) : Idle s.endCycle := by
  obtain ⟨hf, hp, nnn, hd, hpc⟩ := h
  have hword : s.endCycle.fetchWord = s.fetchWord := wordAt_endCycle s
  refine ⟨by rwa [State.endCycle_fault], by rwa [State.fetchable, State.endCycle_pc], nnn, by rwa [hword], ?_⟩
  rwa [State.endCycle_pc]

end Sys2Proof.Machine
end

section
/-! The statements of 70_reset_and_hazards.md, settled. -/

namespace Sys2Proof.Claims

open Sys2Proof.Machine

/-- Settles O38: the stored block begins at the advanced PC, where the next cycle reads its bytes 0 and 1. -/
theorem storedWordIsFetchedNext : Obligations.StoredWordIsFetchedNext := by
  intro s x hwf hf hm hd hx hi hin
  obtain ⟨-, hstores⟩ := storeWritesRegistersUpToX
  obtain ⟨-, hruns⟩ := hstores s x hwf
  obtain ⟨u, hstep, -, ⟨hpc, hbytes, -⟩, -⟩ := step_of_runs hf hm hd (hruns hin)
  have hstart : u.pc.toNat = s.i.toNat := by rw [hpc, toNat_pc_add_two hm, hi]
  have hhigh : u.peek s.i.toNat = s.reg 0#4 := hbytes 0#4 (Nat.zero_le _)
  have hlow : u.peek (s.i.toNat + 1) = s.reg 1#4 := hbytes 1#4 hx
  exact ⟨u.endCycle, hstep, by rw [wordAt_endCycle, wordAt, hstart, hhigh, hlow]⟩

/-- Settles O45: between the write of DT and its read there is one end of a cycle, which ticks it. -/
theorem delayWrittenThenReadIsOneLess : Obligations.DelayWrittenThenReadIsOneLess := by
  intro s x y hf hm hin hd hd'
  obtain ⟨t, hstep, hft, ⟨hpc, hdt⟩, hframe⟩ := step_of_runs hf hm hd (runs_setDt rfl)
  have hpc' : t.endCycle.pc.toNat = s.pc.toNat + 2 := by rw [State.endCycle_pc, hpc, toNat_pc_add_two hm]
  have hm' : MayFetch t.endCycle := by
    obtain ⟨hlo, -⟩ := hm
    exact ⟨by omega, by omega⟩
  have hword : wordAt t.endCycle = s.peek (s.pc.toNat + 2) ++ s.peek (s.pc.toNat + 3) := by
    rw [wordAt, hpc', State.peek_endCycle, State.peek_endCycle, hframe.peek_eq (by decide),
      hframe.peek_eq (by decide)]
  obtain ⟨u, hstep', -, ⟨-, hreg⟩, -⟩ :=
    step_of_runs ((State.endCycle_fault t).trans hft) hm' (hword ▸ hd') (runs_setReg rfl)
  exact ⟨t.endCycle, u.endCycle, hstep, hstep', by
    rw [State.reg_endCycle, hreg, State.endCycle_dt hft, hdt, toNat_tick]⟩

/-- Settles O46: 3584 bytes from 0x200 on end at 0xFFF, so the one block write stays inside the address space. -/
theorem loadCopiesTheProgram : Obligations.LoadCopiesTheProgram := by
  intro s bytes hwf
  rw [load_eq]
  refine ⟨fun hlong => if_neg (Nat.not_le.2 hlong), fun hfits => ?_⟩
  have hin : 0x200 + bytes.length ≤ Config.memSize := Nat.add_le_add_left hfits 0x200
  exact ⟨_, if_pos hfits, fun k hk => State.peek_pokeAll_inside hwf hin hk,
    fun a ha => State.peek_pokeAll_outside hwf hin ha, State.pokeAll_pc _ _ _,
    .pokeAll _ (Set.mem_singleton _) _ _ _⟩

/-- Settles O49: the jump to its own address changes nothing, so the cycle is its end alone. -/
theorem idleCycleOnlyTicks : Obligations.IdleCycleOnlyTicks := by
  intro s h
  refine ⟨_, step_of_idle h, h.endCycle, ?_⟩
  obtain ⟨hf, -⟩ := h
  rw [State.endCycle_running hf]
  exact ⟨toNat_tick s.dt, toNat_tick s.st, rfl⟩

end Sys2Proof.Claims
end
